-- ==== Sys2Proof/Word.lean ====
section
/-! DEFINITION. The two word types of the machine. A byte is a register, a memory cell, an operand or an opcode
(00_scope.md R4 `XLEN`, R6); a program counter is 9 bits wide (R4 `PC_BITS`, 10_state.md R14). -/

namespace Sys2Proof

/-- A byte: an unsigned integer in 0..255 (00_scope.md R6). -/
abbrev Byte := BitVec 8

/-- A program counter value: 9 bits, of which 0..256 are taken (10_state.md R14, log 4). -/
abbrev PcWord := BitVec 9

/-- The number of a general register, 0..7 (10_state.md R10). -/
abbrev RegIndex := Fin 8

end Sys2Proof
end

