-- ==== Sys2Proof/Machine/Flags.lean ====
section
/-! DEFINITION. The flags: what CMP computes (43_alu.md R125) and the condition of each conditional jump as a function of the
whole flags byte (10_state.md R16, 42_control.md R90). -/

namespace Sys2Proof.Machine

/-- `fl.E`, bit 0. -/
def flagE (fl : Byte) : Bool := fl.getLsbD 0

/-- `fl.G`, bit 1. -/
def flagG (fl : Byte) : Bool := fl.getLsbD 1

/-- `fl.L`, bit 2. -/
def flagL (fl : Byte) : Bool := fl.getLsbD 2

/-- The flags byte CMP leaves for `x[a] = x`, `x[b] = y`: E, L or G alone, unsigned (43_alu.md R125). -/
def compareFlags (x y : Byte) : Byte :=
  if x = y then 0b00000001 else if x < y then 0b00000100 else 0b00000010

/-- JEQ: E set. -/
def condEQ (fl : Byte) : Bool := flagE fl

/-- JNE: E clear (92_eei_decisions.md D13; log 12). -/
def condNE (fl : Byte) : Bool := !flagE fl

/-- JGT: G set. -/
def condGT (fl : Byte) : Bool := flagG fl

/-- JLT: L set. -/
def condLT (fl : Byte) : Bool := flagL fl

/-- JGE: E or G set. -/
def condGE (fl : Byte) : Bool := flagE fl || flagG fl

/-- JLE: E or L set. -/
def condLE (fl : Byte) : Bool := flagE fl || flagL fl

end Sys2Proof.Machine
end

