-- ==== Sys2Proof/Config.lean ====
section
/-! DEFINITION. The implementation parameters of 00_scope.md R4, all eight in one record. There are no optional features and
no free values in this machine (93_implementation_defined.md Part 1). -/

namespace Sys2Proof.Config

/-- `OPCODE_MAP`: the opcode byte of each of the 33 instructions other than ADDI (00_scope.md R4, 30_encoding.md R59). -/
structure OpcodeMap (width : Nat) where
  nop : BitVec width
  hlt : BitVec width
  ret : BitVec width
  iret : BitVec width
  push : BitVec width
  pop : BitVec width
  prn : BitVec width
  pra : BitVec width
  call : BitVec width
  jmp : BitVec width
  jeq : BitVec width
  jne : BitVec width
  jgt : BitVec width
  jlt : BitVec width
  jle : BitVec width
  jge : BitVec width
  inc : BitVec width
  dec : BitVec width
  not : BitVec width
  ldi : BitVec width
  ld : BitVec width
  st : BitVec width
  add : BitVec width
  sub : BitVec width
  mul : BitVec width
  div : BitVec width
  mod : BitVec width
  cmp : BitVec width
  and : BitVec width
  or : BitVec width
  xor : BitVec width
  shl : BitVec width
  shr : BitVec width
  deriving DecidableEq, Repr

/-- The parameters of the hardware (00_scope.md R4). -/
structure Parameters where
  /-- `XLEN`: width in bits of a register, a memory cell, an operand byte, an opcode. -/
  xlen : Nat
  /-- `NREG`: number of general registers. -/
  nreg : Nat
  /-- `MEM_SIZE`: number of memory cells. -/
  memSize : Nat
  /-- `SP_INDEX`: the register that is the stack pointer. -/
  spIndex : Fin nreg
  /-- `SP_INIT`: reset value of the stack pointer. -/
  spInit : BitVec xlen
  /-- `PC_BITS`: width of the program counter. -/
  pcBits : Nat
  /-- `OPCODE_MAP`. -/
  opcodeMap : OpcodeMap xlen
  /-- `OPC_ADDI`: opcode byte of ADDI. -/
  opcAddi : BitVec xlen
  deriving DecidableEq, Repr

/-- The values of 00_scope.md R4; the opcodes are the table of 30_encoding.md R59 and R60 (log 8, log 19). -/
abbrev hardware : Parameters where
  xlen := 8
  nreg := 8
  memSize := 256
  spIndex := 7
  spInit := 0xF4
  pcBits := 9
  opcodeMap := {
    nop := 0x00, hlt := 0x01, ret := 0x11, iret := 0x13
    push := 0x45, pop := 0x46, prn := 0x47, pra := 0x48
    call := 0x50, jmp := 0x54, jeq := 0x55, jne := 0x56, jgt := 0x57, jlt := 0x58, jle := 0x59, jge := 0x5A
    inc := 0x65, dec := 0x66, not := 0x69
    ldi := 0x82, ld := 0x83, st := 0x84
    add := 0xA0, sub := 0xA1, mul := 0xA2, div := 0xA3, mod := 0xA4, cmp := 0xA7
    and := 0xA8, or := 0xAA, xor := 0xAB, shl := 0xAC, shr := 0xAD }
  opcAddi := 0xAE

/-- The word types of Word.lean are those of the record: `Byte` has XLEN bits, `PcWord` has PC_BITS, a `RegIndex` is below
NREG. The types are written with numerals, so that the arithmetic of fixed-width words applies to them as it stands. -/
theorem word_types_of_parameters :
    Byte = BitVec hardware.xlen ∧ PcWord = BitVec hardware.pcBits ∧ RegIndex = Fin hardware.nreg :=
  ⟨rfl, rfl, rfl⟩

end Sys2Proof.Config
end

