-- ==== Sys2Proof/Syntax.lean ====
section
/-! DEFINITION. The instructions: one constructor per row of spec/opcode_table.json, in the table's order
(30_encoding.md R59). An operand is kept as the whole operand byte, a register operand too: the engine decodes first and
checks a register index afterwards (R52, R57; log 9). -/

namespace Sys2Proof

/-- The 34 instructions. `a` is `operand_a`, `b` is `operand_b` where it names a register, `imm` is `operand_b` where it
is an immediate (00_scope.md R6). -/
inductive Instr where
  | nop
  | hlt
  | ret
  | iret
  | push (a : Byte)
  | pop (a : Byte)
  | prn (a : Byte)
  | pra (a : Byte)
  | call (a : Byte)
  | jmp (a : Byte)
  | jeq (a : Byte)
  | jne (a : Byte)
  | jgt (a : Byte)
  | jlt (a : Byte)
  | jle (a : Byte)
  | jge (a : Byte)
  | inc (a : Byte)
  | dec (a : Byte)
  | not (a : Byte)
  | ldi (a imm : Byte)
  | ld (a b : Byte)
  | st (a b : Byte)
  | add (a b : Byte)
  | sub (a b : Byte)
  | mul (a b : Byte)
  | div (a b : Byte)
  | mod (a b : Byte)
  | cmp (a b : Byte)
  | and (a b : Byte)
  | or (a b : Byte)
  | xor (a b : Byte)
  | shl (a b : Byte)
  | shr (a b : Byte)
  | addi (a imm : Byte)
  deriving DecidableEq, Repr

end Sys2Proof
end

