-- ==== Sys2Proof/Decode.lean ====
section
/-! DEFINITION. The opcode map, the decoder and the encoder (30_encoding.md R50 to R63). The opcode numbers are the spec's,
which marks them as general knowledge (R59, R60; log 8). -/

namespace Sys2Proof

open Config (hardware)

/-! ## Fields of the opcode byte (R51, R55) -/

/-- `operand_count = opcode[7:6]` (30_encoding.md R55). -/
def operandCount (opcode : Byte) : Nat := (opcode.extractLsb' 6 2).toNat

/-- `instruction_length = operand_count + 1` (30_encoding.md R50, R55). -/
def instructionLength (opcode : Byte) : Nat := operandCount opcode + 1

/-- `sets_pc = opcode[4]` (30_encoding.md R55). -/
def setsPc (opcode : Byte) : Bool := opcode.getLsbD 4

/-! ## The opcode map (R53, R59, R60) -/

/-- The four formats of 30_encoding.md R53, each with the instruction it builds from its operand bytes. -/
inductive Shape where
  | f0 (i : Instr)
  | f1R (mk : Byte → Instr)
  | f2RR (mk : Byte → Byte → Instr)
  | f2RI (mk : Byte → Byte → Instr)

/-- The number of operand bytes of a format (30_encoding.md R53). -/
def Shape.operandBytes : Shape → Nat
  | .f0 _ => 0
  | .f1R _ => 1
  | .f2RR _ | .f2RI _ => 2

/-- The instruction a format makes of the two bytes after the opcode; bytes that are not part of the instruction are
ignored (30_encoding.md R53). -/
def Shape.build (operandA operandB : Byte) : Shape → Instr
  | .f0 i => i
  | .f1R mk => mk operandA
  | .f2RR mk | .f2RI mk => mk operandA operandB

/-- One row of the opcode map. -/
structure OpcodeRow where
  opcode : Byte
  shape : Shape

/-- The rows of the opcode map: each opcode byte of the configuration record with its format and instruction (30_encoding.md
R53, R59, R60), in the order of R59. -/
def opcodeTable : List OpcodeRow :=
  [⟨hardware.opcodeMap.nop, .f0 .nop⟩, ⟨hardware.opcodeMap.hlt, .f0 .hlt⟩,
   ⟨hardware.opcodeMap.ret, .f0 .ret⟩, ⟨hardware.opcodeMap.iret, .f0 .iret⟩] ++
  [⟨hardware.opcodeMap.push, .f1R .push⟩, ⟨hardware.opcodeMap.pop, .f1R .pop⟩,
   ⟨hardware.opcodeMap.prn, .f1R .prn⟩, ⟨hardware.opcodeMap.pra, .f1R .pra⟩] ++
  [⟨hardware.opcodeMap.call, .f1R .call⟩, ⟨hardware.opcodeMap.jmp, .f1R .jmp⟩,
   ⟨hardware.opcodeMap.jeq, .f1R .jeq⟩, ⟨hardware.opcodeMap.jne, .f1R .jne⟩] ++
  [⟨hardware.opcodeMap.jgt, .f1R .jgt⟩, ⟨hardware.opcodeMap.jlt, .f1R .jlt⟩,
   ⟨hardware.opcodeMap.jle, .f1R .jle⟩, ⟨hardware.opcodeMap.jge, .f1R .jge⟩] ++
  [⟨hardware.opcodeMap.inc, .f1R .inc⟩, ⟨hardware.opcodeMap.dec, .f1R .dec⟩,
   ⟨hardware.opcodeMap.not, .f1R .not⟩] ++
  [⟨hardware.opcodeMap.ldi, .f2RI .ldi⟩] ++
  [⟨hardware.opcodeMap.ld, .f2RR .ld⟩, ⟨hardware.opcodeMap.st, .f2RR .st⟩] ++
  [⟨hardware.opcodeMap.add, .f2RR .add⟩, ⟨hardware.opcodeMap.sub, .f2RR .sub⟩,
   ⟨hardware.opcodeMap.mul, .f2RR .mul⟩, ⟨hardware.opcodeMap.div, .f2RR .div⟩,
   ⟨hardware.opcodeMap.mod, .f2RR .mod⟩, ⟨hardware.opcodeMap.cmp, .f2RR .cmp⟩] ++
  [⟨hardware.opcodeMap.and, .f2RR .and⟩, ⟨hardware.opcodeMap.or, .f2RR .or⟩,
   ⟨hardware.opcodeMap.xor, .f2RR .xor⟩, ⟨hardware.opcodeMap.shl, .f2RR .shl⟩,
   ⟨hardware.opcodeMap.shr, .f2RR .shr⟩] ++
  [⟨hardware.opcAddi, .f2RI .addi⟩]

/-- The row whose opcode is the fetched byte: dispatch is on the whole byte (30_encoding.md R51, R56). -/
def lookupOpcode (opcode : Byte) : Option Shape :=
  (opcodeTable.find? fun r => r.opcode == opcode).map (·.shape)

/-! ## The decoder -/

/-- Why a decoder gives no instruction. -/
inductive DecodeReject where
  /-- The opcode byte has no handler: one of the 222 illegal bytes (30_encoding.md R56, R61). -/
  | noHandler (opcode : Byte)
  /-- Fewer than the three bytes that every fetch takes (30_encoding.md R54). The engine never meets this case: its fetch
  has faulted before. -/
  | tooFewBytes
  deriving DecidableEq, Repr

/-- The instruction that the three bytes of a fetch hold (30_encoding.md R53, R56). -/
def decode (opcode operandA operandB : Byte) : Except DecodeReject Instr :=
  match lookupOpcode opcode with
  | some shape => .ok (shape.build operandA operandB)
  | none => .error (.noHandler opcode)

/-- The decoder on a run of bytes in ascending address order: total on any bytes. -/
def decodeBytes : List Byte → Except DecodeReject Instr
  | opcode :: operandA :: operandB :: _ => decode opcode operandA operandB
  | _ => .error .tooFewBytes

/-! ## The encoder -/

/-- The opcode byte of each instruction (the "Encoding" line of each instruction's rule). -/
def opcodeOf : Instr → Byte
  | .nop => hardware.opcodeMap.nop
  | .hlt => hardware.opcodeMap.hlt
  | .ret => hardware.opcodeMap.ret
  | .iret => hardware.opcodeMap.iret
  | .push _ => hardware.opcodeMap.push
  | .pop _ => hardware.opcodeMap.pop
  | .prn _ => hardware.opcodeMap.prn
  | .pra _ => hardware.opcodeMap.pra
  | .call _ => hardware.opcodeMap.call
  | .jmp _ => hardware.opcodeMap.jmp
  | .jeq _ => hardware.opcodeMap.jeq
  | .jne _ => hardware.opcodeMap.jne
  | .jgt _ => hardware.opcodeMap.jgt
  | .jlt _ => hardware.opcodeMap.jlt
  | .jle _ => hardware.opcodeMap.jle
  | .jge _ => hardware.opcodeMap.jge
  | .inc _ => hardware.opcodeMap.inc
  | .dec _ => hardware.opcodeMap.dec
  | .not _ => hardware.opcodeMap.not
  | .ldi _ _ => hardware.opcodeMap.ldi
  | .ld _ _ => hardware.opcodeMap.ld
  | .st _ _ => hardware.opcodeMap.st
  | .add _ _ => hardware.opcodeMap.add
  | .sub _ _ => hardware.opcodeMap.sub
  | .mul _ _ => hardware.opcodeMap.mul
  | .div _ _ => hardware.opcodeMap.div
  | .mod _ _ => hardware.opcodeMap.mod
  | .cmp _ _ => hardware.opcodeMap.cmp
  | .and _ _ => hardware.opcodeMap.and
  | .or _ _ => hardware.opcodeMap.or
  | .xor _ _ => hardware.opcodeMap.xor
  | .shl _ _ => hardware.opcodeMap.shl
  | .shr _ _ => hardware.opcodeMap.shr
  | .addi _ _ => hardware.opcAddi

/-- The operand bytes of each instruction, first operand first (30_encoding.md R53, R64). -/
def operandBytes : Instr → List Byte
  | .nop | .hlt | .ret | .iret => []
  | .push a | .pop a | .prn a | .pra a => [a]
  | .call a | .jmp a | .jeq a | .jne a | .jgt a | .jlt a | .jle a | .jge a => [a]
  | .inc a | .dec a | .not a => [a]
  | .ldi a imm | .addi a imm => [a, imm]
  | .ld a b | .st a b => [a, b]
  | .add a b | .sub a b | .mul a b | .div a b | .mod a b | .cmp a b => [a, b]
  | .and a b | .or a b | .xor a b | .shl a b | .shr a b => [a, b]

/-- The bytes of an instruction in ascending address order (30_encoding.md R50). -/
def encode (i : Instr) : List Byte := opcodeOf i :: operandBytes i

/-! ## The host's numbering of an instruction's bits -/

/-- Byte `k` of an instruction whose bits are the low `nbits` bits of `w`: bit 0 is the least significant bit of the first
byte, bits 15..8 are the second byte. -/
def tableByte (nbits w k : Nat) : Byte := BitVec.ofNat 8 ((w % 2 ^ nbits) / 256 ^ k)

/-- The instruction the decoder reads from the low `nbits` bits of `w`, every bit above them 0. -/
def decodeTableWord (nbits w : Nat) : Option Instr :=
  match decodeBytes [tableByte nbits w 0, tableByte nbits w 1, tableByte nbits w 2] with
  | .ok i => some i
  | .error _ => none

end Sys2Proof
end

