-- ==== Sys2Proof/Machine/State.lean ====
section
/-! DEFINITION. The whole architectural state (10_state.md R10 to R22), plain data, and the reasons a step can stop. Nothing
beyond these fields is state (R21). -/

namespace Sys2Proof.Machine

/-- The engine status (10_state.md R18). -/
inductive Status where
  /-- The engine performs one cycle after another. -/
  | running
  /-- The run ended by HLT ("success"). -/
  | halted
  /-- The run ended by a fatal error. -/
  | faulted
  deriving DecidableEq, Repr

/-- The two index spaces of OutOfRangeAccess (60_exceptions.md R140). -/
inductive Space where
  | mem
  | reg
  deriving DecidableEq, Repr

/-- The three faults of the hardware, each with the detail that is recorded (00_scope.md R6, 60_exceptions.md R140). -/
inductive FaultCause where
  /-- The fetched opcode has no handler. -/
  | decodeError (opcode : Byte)
  /-- Division or modulo by zero. -/
  | arithmeticError (opcode : Byte)
  /-- A memory address or a register index outside valid bounds. -/
  | outOfRangeAccess (space : Space) (index : Nat)
  deriving DecidableEq, Repr

/-- The fault record: the cause with its detail, and the address of the faulting instruction (10_state.md R18,
60_exceptions.md R145). -/
structure FaultRecord where
  cause : FaultCause
  faultPc : PcWord
  deriving DecidableEq, Repr

/-- The two kinds of output event (44_io.md R132). -/
inductive EventKind where
  | num
  | chr
  deriving DecidableEq, Repr

/-- One output event `(kind, value)` (44_io.md R132). -/
structure Event where
  kind : EventKind
  value : Byte
  deriving DecidableEq, Repr

/-- Memory as (address, byte) pairs in rising address order; a cell that is not listed reads as 0, the reset content of
every cell (10_state.md R19, R22; log 6). -/
abbrev Memory := List Host.Cell

/-- The architectural state. -/
structure State where
  /-- `x[0]` to `x[7]`; `x[7]` is `sp` (10_state.md R10 to R13). -/
  regs : Vector Byte Config.hardware.nreg
  /-- The program counter (10_state.md R14). -/
  pc : PcWord
  /-- The flags byte: bit 0 E, bit 1 G, bit 2 L (10_state.md R16). -/
  fl : Byte
  /-- The engine status (10_state.md R18). -/
  status : Status
  /-- The fault record; absent stands for cause code 0, "no fault" (60_exceptions.md R140; log 3). -/
  fault : Option FaultRecord
  /-- The 256 memory cells (10_state.md R19, 20_memory.md R30). -/
  mem : Memory
  /-- The output trace, oldest event first (10_state.md R20). -/
  trace : List Event
  deriving DecidableEq, Repr

/-- The machine right after reset (10_state.md R22, 70_reset_and_hazards.md R160). -/
def State.reset : State where
  regs := #v[0, 0, 0, 0, 0, 0, 0, Config.hardware.spInit]
  pc := 0
  fl := 0
  status := .running
  fault := none
  mem := []
  trace := []

/-- The reasons the model itself stops with a fault: none. Every fault of the hardware is the fault entry of
60_exceptions.md R145, which the spec describes whole, and is a next state with status FAULTED (log 1). Nobody raises a value
of this type, which has no value; that is safe. -/
inductive Fault
  deriving DecidableEq, Repr

/-- The reasons the model has no meaning for an instruction. -/
inductive Refusal where
  /-- Raised by a refused arm of `exec` for an instruction that has no meaning yet; safe, since nothing can be proved of
  what such an instruction does. No arm raises it now. -/
  | notModelled (mnemonic : String)
  deriving DecidableEq, Repr

/-- The three outcomes of an instruction or a step. -/
abbrev Result := Host.Outcome State Fault Refusal

end Sys2Proof.Machine
end

