-- ==== Sys2Proof/Machine/Memory.lean ====
section
/-! DEFINITION. The memory array as a canonical list: reading and writing one cell (20_memory.md R30 to R32). Addresses
here are plain numbers; the range check of R31 and R32 stands in Ops.lean. -/

namespace Sys2Proof.Machine

/-- The content of a cell; a cell that is not listed holds 0 (10_state.md R22). -/
def Memory.get : Memory → Nat → Byte
  | [], _ => 0#8
  | (key, value) :: rest, addr => if key = addr then value else Memory.get rest addr

/-- `cell` put before the first cell with a larger address. -/
def Memory.insert (cell : Host.Cell) : Memory → Memory
  | [] => [cell]
  | head :: rest => if cell.1 < head.1 then cell :: head :: rest else head :: Memory.insert cell rest

/-- The cell at `addr` set to `value`; writing 0, what an unlisted cell reads as, removes the entry. -/
def Memory.put (m : Memory) (addr : Nat) (value : Byte) : Memory :=
  let others : Memory := m.filter fun cell => cell.1 != addr
  if value = 0#8 then others else Memory.insert (addr, value) others

/-- Addresses strictly rising, from `low` on. -/
def Memory.risingFrom : Nat → Memory → Bool
  | _, [] => true
  | low, (key, _) :: rest => decide (low ≤ key) && Memory.risingFrom (key + 1) rest

/-- The canonical form: addresses strictly rising and inside the memory, no entry 0. -/
def Memory.wf (m : Memory) : Bool :=
  Memory.risingFrom 0 m && m.all fun cell => decide (cell.1 < Config.hardware.memSize) && cell.2 != 0#8

/-- The bytes `image` written at ascending addresses from `addr` on. -/
def Memory.putBytes (m : Memory) (addr : Nat) : List Byte → Memory
  | [] => m
  | value :: rest => Memory.putBytes (Memory.put m addr value) (addr + 1) rest

end Sys2Proof.Machine
end

