-- ==== Sys2Proof/Machine/Ops.lean ====
section
/-! DEFINITION. The operations every instruction is built from: registers, checked memory access, fault entry, the stack
primitives, the output port, the fetch, the default advance and the program load. -/

namespace Sys2Proof.Machine

/-! ## Registers (10_state.md R10 to R17) -/

/-- `x[i]`. -/
def State.reg (s : State) (i : RegIndex) : Byte := s.regs[i.val]

/-- `x[i] <- v`. -/
def State.setReg (s : State) (i : RegIndex) (v : Byte) : State := { s with regs := s.regs.set i.val v }

/-- `sp`, the alias of `x[7]` (10_state.md R13). -/
def State.sp (s : State) : Byte := s.reg Config.hardware.spIndex

/-- `sp <- v`. -/
def State.setSp (s : State) (v : Byte) : State := s.setReg Config.hardware.spIndex v

/-- `pc <- target`. -/
def State.setPc (s : State) (target : PcWord) : State := { s with pc := target }

/-- `fl <- v`, the whole byte (10_state.md R16). -/
def State.setFl (s : State) (v : Byte) : State := { s with fl := v }

/-- `status <- v`. -/
def State.setStatus (s : State) (v : Status) : State := { s with status := v }

/-- A byte as a program counter value: a handler-set target is always in 0..255 (42_control.md R103). -/
def target (v : Byte) : PcWord := v.setWidth Config.hardware.pcBits

/-- The low byte of a program counter value. CALL pushes `pc + 2`, which fits a byte whenever CALL executes
(42_control.md R91; log 5). -/
def returnAddress (v : PcWord) : Byte := v.setWidth Config.hardware.xlen

/-! ## Fault entry (60_exceptions.md R140, R145) -/

/-- The numeric cause code of 60_exceptions.md R140. -/
def FaultCause.code : FaultCause → Nat
  | .decodeError _ => 1
  | .arithmeticError _ => 2
  | .outOfRangeAccess _ _ => 3

/-- The cause code that the environment sees: 0 while no fault is recorded (60_exceptions.md R140). -/
def State.faultCode (s : State) : Nat :=
  match s.fault with
  | none => 0
  | some r => r.cause.code

/-- `raise <Cause>(detail)`: status FAULTED, the fault record written, nothing else changed (60_exceptions.md R145). There
is no return from it: only a reset leaves FAULTED (R146). -/
def raiseFault (c : FaultCause) (s : State) : State :=
  { s with status := .faulted, fault := some ⟨c, s.pc⟩ }

/-- A cycle that ends in a fault is a step to the state after fault entry (log 1). -/
def takeFault (c : FaultCause) (s : State) : Result := .next (raiseFault c s)

/-- HALTED and FAULTED: no cycle, no state change, no output (10_state.md R18, 70_reset_and_hazards.md R163; log 2). -/
def idle (s : State) : Result := .next s

/-! ## Memory access (20_memory.md R31, R32) -/

/-- `MemRead(addr, 1)`; an address above 255 faults and is never reduced. -/
def memRead (addr : Nat) (s : State) : Except FaultCause Byte :=
  if addr < Config.hardware.memSize then .ok (s.mem.get addr) else .error (.outOfRangeAccess .mem addr)

/-- `MemWrite(addr, 1, v)`; an address above 255 faults and is never reduced. -/
def memWrite (addr : Nat) (v : Byte) (s : State) : Except FaultCause State :=
  if addr < Config.hardware.memSize then .ok { s with mem := s.mem.put addr v } else .error (.outOfRangeAccess .mem addr)

/-! ## The stack pointer controller (41_stack.md R80) -/

/-- `sp <- (sp - 1) mod 256`. -/
def decSp (s : State) : State := s.setSp (s.sp - 1)

/-- `sp <- (sp + 1) mod 256`. -/
def incSp (s : State) : State := s.setSp (s.sp + 1)

/-- `push(v)`: pre-decrement, then store at the new `sp`. -/
def push (v : Byte) (s : State) : Except FaultCause State :=
  memWrite (decSp s).sp.toNat v (decSp s)

/-- `pop()`: read at the current `sp`, then post-increment; the popped byte and the state after. -/
def pop (s : State) : Except FaultCause (Byte × State) := do
  let v ← memRead s.sp.toNat s
  return (v, incSp s)

/-- `x[i] <- pop()`, the pop completed before the register is written (42_control.md R100). -/
def popReg (i : RegIndex) (s : State) : Except FaultCause State := do
  let (v, t) ← pop s
  return t.setReg i v

/-! ## The output port (44_io.md R132) -/

/-- `emit(kind, v)`: the event is appended to the output trace. -/
def emit (kind : EventKind) (v : Byte) (s : State) : State :=
  { s with trace := s.trace ++ [⟨kind, v⟩] }

/-! ## Fetch and decode (30_encoding.md R54 to R56) -/

/-- The three bytes of a fetch. -/
structure Fetched where
  opcode : Byte
  operandA : Byte
  operandB : Byte
  deriving DecidableEq, Repr

/-- Step 1: all three bytes are read, in this order, at unreduced addresses (30_encoding.md R54). -/
def fetch (s : State) : Except FaultCause Fetched := do
  let opcode ← memRead s.pc.toNat s
  let operandA ← memRead (s.pc.toNat + 1) s
  let operandB ← memRead (s.pc.toNat + 2) s
  return ⟨opcode, operandA, operandB⟩

/-- The fault of a decoder's rejection. The second case cannot arise: a fetch gives three bytes. -/
def decodeFault : DecodeReject → FaultCause
  | .noHandler opcode => .decodeError opcode
  | .tooFewBytes => .outOfRangeAccess .mem Config.hardware.memSize

/-- Steps 1 to 3: fetch, decode, dispatch (30_encoding.md R54 to R56). -/
def fetchDecode (s : State) : Except FaultCause Instr := do
  let f ← fetch s
  match decode f.opcode f.operandA f.operandB with
  | .ok i => .ok i
  | .error r => .error (decodeFault r)

/-! ## Execute and advance (30_encoding.md R58) -/

/-- Step 4: `pc <- pc + instruction_length` where the opcode has `sets_pc = 0`; nothing where it has `sets_pc = 1`. -/
def advance (i : Instr) (s : State) : State :=
  if setsPc (opcodeOf i) then s else s.setPc (s.pc + BitVec.ofNat Config.hardware.pcBits (instructionLength (opcodeOf i)))

/-- The end of a cycle whose handler, started in `s`, gave `r`: the default advance, or fault entry on the state at the
start of the cycle (30_encoding.md R58, 60_exceptions.md R145). -/
def retire (i : Instr) (s : State) (r : Except FaultCause State) : Result :=
  match r with
  | .ok t => .next (advance i t)
  | .error c => takeFault c s

/-! ## Program load (70_reset_and_hazards.md R161) -/

/-- The launch state of an image: reset, then the image from address 0. An image of more than 256 bytes has no launch state
(R161; log 7). -/
def launch (image : List Byte) : Option State :=
  if image.length ≤ Config.hardware.memSize then some { State.reset with mem := Memory.putBytes [] 0 image } else none

end Sys2Proof.Machine
end

