-- ==== Sys2Proof/Machine/Operands.lean ====
section
/-! DEFINITION. The operand check, step 3a of the cycle (30_encoding.md R57), and the instruction shapes that begin with
it. The check comes before any effect of the handler. -/

namespace Sys2Proof.Machine

/-- A register operand: the whole byte is the index; 8 or more is OutOfRangeAccess(REG, byte) (30_encoding.md R52, R57). -/
def regOperand (b : Byte) : Except FaultCause RegIndex :=
  if h : b.toNat < Config.hardware.nreg then .ok ⟨b.toNat, h⟩ else .error (.outOfRangeAccess .reg b.toNat)

/-- Format F0: nothing is checked. -/
def onNone (i : Instr) (s : State) (handler : Except FaultCause State) : Result := retire i s handler

/-- Formats F1R and F2RI: `operand_a` is checked, then the handler runs. -/
def onReg (i : Instr) (a : Byte) (s : State) (handler : RegIndex → Except FaultCause State) : Result :=
  retire i s (do
    let ra ← regOperand a
    handler ra)

/-- Format F2RR: `operand_a` is checked, then `operand_b`, then the handler runs. -/
def onRegs (i : Instr) (a b : Byte) (s : State) (handler : RegIndex → RegIndex → Except FaultCause State) : Result :=
  retire i s (do
    let ra ← regOperand a
    let rb ← regOperand b
    handler ra rb)

/-- `x[a] <- f(x[a])`, for one register operand. -/
def updateReg (i : Instr) (a : Byte) (f : Byte → Byte) (s : State) : Result :=
  onReg i a s fun ra => .ok (s.setReg ra (f (s.reg ra)))

/-- `x[a] <- f(x[a], x[b])`: both operands are read before the write (43_alu.md R110 (f)). -/
def combineRegs (i : Instr) (a b : Byte) (f : Byte → Byte → Byte) (s : State) : Result :=
  onRegs i a b s fun ra rb => .ok (s.setReg ra (f (s.reg ra) (s.reg rb)))

/-- As `combineRegs`, but a zero `x[b]` is ArithmeticError with the opcode byte, tested before the write (43_alu.md R114,
R115; 60_exceptions.md R142). -/
def divideRegs (i : Instr) (a b : Byte) (f : Byte → Byte → Byte) (s : State) : Result :=
  onRegs i a b s fun ra rb =>
    if s.reg rb = 0#8 then .error (.arithmeticError (opcodeOf i)) else .ok (s.setReg ra (f (s.reg ra) (s.reg rb)))

/-- `pc <- x[a]` where the condition holds, else `pc <- pc + 2`; the index is checked in both cases (42_control.md R90). -/
def jumpIf (i : Instr) (taken : Bool) (a : Byte) (s : State) : Result :=
  onReg i a s fun ra => .ok (s.setPc (if taken then target (s.reg ra) else s.pc + 2))

end Sys2Proof.Machine
end

