-- ==== Sys2Proof/Machine/Alu.lean ====
section
/-! DEFINITION. The ALU instructions (43_alu.md R110 to R126). Every operation is unsigned 8-bit and wraps modulo 256
(R110); no instruction but CMP writes the flags (R126). -/

namespace Sys2Proof.Machine

/-- `x << y` on 8 bits, the count not reduced: 8 or more gives 0 (43_alu.md R123; log 11). -/
def shiftLeft (x y : Byte) : Byte := x <<< y.toNat

/-- `x >> y`, logical, the count not reduced: 8 or more gives 0 (43_alu.md R124; log 11). -/
def shiftRight (x y : Byte) : Byte := x >>> y.toNat

/-- ADD (43_alu.md R111). -/
def execAdd (a b : Byte) (s : State) : Result := combineRegs (.add a b) a b (fun x y => x + y) s

/-- SUB (43_alu.md R112). -/
def execSub (a b : Byte) (s : State) : Result := combineRegs (.sub a b) a b (fun x y => x - y) s

/-- MUL, the low byte of the product (43_alu.md R113). -/
def execMul (a b : Byte) (s : State) : Result := combineRegs (.mul a b) a b (fun x y => x * y) s

/-- DIV, the unsigned quotient (43_alu.md R114). -/
def execDiv (a b : Byte) (s : State) : Result := divideRegs (.div a b) a b (fun x y => x / y) s

/-- MOD, the unsigned remainder (43_alu.md R115). -/
def execMod (a b : Byte) (s : State) : Result := divideRegs (.mod a b) a b (fun x y => x % y) s

/-- ADDI (43_alu.md R116). -/
def execAddi (a imm : Byte) (s : State) : Result := updateReg (.addi a imm) a (fun x => x + imm) s

/-- INC (43_alu.md R117). -/
def execInc (a : Byte) (s : State) : Result := updateReg (.inc a) a (fun x => x + 1) s

/-- DEC (43_alu.md R118). -/
def execDec (a : Byte) (s : State) : Result := updateReg (.dec a) a (fun x => x - 1) s

/-- AND (43_alu.md R119). -/
def execAnd (a b : Byte) (s : State) : Result := combineRegs (.and a b) a b (fun x y => x &&& y) s

/-- OR (43_alu.md R120). -/
def execOr (a b : Byte) (s : State) : Result := combineRegs (.or a b) a b (fun x y => x ||| y) s

/-- XOR (43_alu.md R121). -/
def execXor (a b : Byte) (s : State) : Result := combineRegs (.xor a b) a b (fun x y => x ^^^ y) s

/-- NOT, the 8-bit complement (43_alu.md R122). -/
def execNot (a : Byte) (s : State) : Result := updateReg (.not a) a (fun x => ~~~x) s

/-- SHL (43_alu.md R123). -/
def execShl (a b : Byte) (s : State) : Result := combineRegs (.shl a b) a b shiftLeft s

/-- SHR (43_alu.md R124). -/
def execShr (a b : Byte) (s : State) : Result := combineRegs (.shr a b) a b shiftRight s

/-- CMP: the whole flags byte is replaced, no register changes (43_alu.md R125). -/
def execCmp (a b : Byte) (s : State) : Result :=
  onRegs (.cmp a b) a b s fun ra rb => .ok (s.setFl (compareFlags (s.reg ra) (s.reg rb)))

end Sys2Proof.Machine
end

