-- ==== Sys2Proof/Machine/Control.lean ====
section
/-! DEFINITION. The control instructions CALL, RET, JMP, the six conditional jumps, IRET, HLT, NOP (42_control.md R90 to
R102). -/

namespace Sys2Proof.Machine

/-- CALL: `push(pc + 2)`, then `pc <- x[a]`, so CALL R7 jumps to the decremented `sp` (42_control.md R91; log 15). -/
def execCall (a : Byte) (s : State) : Result :=
  onReg (.call a) a s fun ra => do
    let t ← push (returnAddress (s.pc + 2)) s
    return t.setPc (target (t.reg ra))

/-- RET: `pc <- pop()` (42_control.md R92). -/
def execRet (s : State) : Result :=
  onNone .ret s (do
    let (v, t) ← pop s
    return t.setPc (target v))

/-- JMP: `pc <- x[a]` (42_control.md R93). -/
def execJmp (a : Byte) (s : State) : Result := jumpIf (.jmp a) true a s

/-- JEQ (42_control.md R94). -/
def execJeq (a : Byte) (s : State) : Result := jumpIf (.jeq a) (condEQ s.fl) a s

/-- JNE (42_control.md R95). -/
def execJne (a : Byte) (s : State) : Result := jumpIf (.jne a) (condNE s.fl) a s

/-- JGT (42_control.md R96). -/
def execJgt (a : Byte) (s : State) : Result := jumpIf (.jgt a) (condGT s.fl) a s

/-- JLT (42_control.md R97). -/
def execJlt (a : Byte) (s : State) : Result := jumpIf (.jlt a) (condLT s.fl) a s

/-- JLE (42_control.md R99). -/
def execJle (a : Byte) (s : State) : Result := jumpIf (.jle a) (condLE s.fl) a s

/-- JGE (42_control.md R98). -/
def execJge (a : Byte) (s : State) : Result := jumpIf (.jge a) (condGE s.fl) a s

/-- IRET: pops `x[6]` down to `x[0]`, then `fl`, then `pc`; re-enabling interrupts changes nothing (42_control.md R100,
60_exceptions.md R147). -/
def execIret (s : State) : Result :=
  onNone .iret s (do
    let s ← popReg 6 s
    let s ← popReg 5 s
    let s ← popReg 4 s
    let s ← popReg 3 s
    let s ← popReg 2 s
    let s ← popReg 1 s
    let s ← popReg 0 s
    let (flags, s) ← pop s
    let (dest, s) ← pop s
    return (s.setFl flags).setPc (target dest))

/-- HLT: `status <- HALTED`; `pc` keeps the address of the HLT byte (42_control.md R101, 30_encoding.md R58). -/
def execHlt (s : State) : Result := .next (s.setStatus .halted)

/-- NOP: nothing but the default advance (42_control.md R102). -/
def execNop (s : State) : Result := onNone .nop s (.ok s)

end Sys2Proof.Machine
end

