-- ==== Sys2Proof/Machine/DataMove.lean ====
section
/-! DEFINITION. The data-move instructions LDI, LD, ST (40_data_move.md R70 to R72). -/

namespace Sys2Proof.Machine

/-- LDI: `x[a] <- imm` (40_data_move.md R70). -/
def execLdi (a imm : Byte) (s : State) : Result :=
  onReg (.ldi a imm) a s fun ra => .ok (s.setReg ra imm)

/-- LD: `x[a] <- MemRead(x[b], 1)` (40_data_move.md R71). -/
def execLd (a b : Byte) (s : State) : Result :=
  onRegs (.ld a b) a b s fun ra rb => do
    let v ← memRead (s.reg rb).toNat s
    return s.setReg ra v

/-- ST: `MemWrite(x[a], 1, x[b])` (40_data_move.md R72). -/
def execSt (a b : Byte) (s : State) : Result :=
  onRegs (.st a b) a b s fun ra rb => memWrite (s.reg ra).toNat (s.reg rb) s

end Sys2Proof.Machine
end

