-- ==== Sys2Proof/Machine/Io.lean ====
section
/-! DEFINITION. The output instructions PRN and PRA and the text of an event (44_io.md R130 to R132). -/

namespace Sys2Proof.Machine

/-- PRN: `emit(NUM, x[a])` (44_io.md R130). -/
def execPrn (a : Byte) (s : State) : Result :=
  onReg (.prn a) a s fun ra => .ok (emit .num (s.reg ra) s)

/-- PRA: `emit(CHR, x[a])` (44_io.md R131). -/
def execPra (a : Byte) (s : State) : Result :=
  onReg (.pra a) a s fun ra => .ok (emit .chr (s.reg ra) s)

/-- The code point of a decimal digit. -/
def digitChar (d : Nat) : Char := Char.ofNat (48 + d % 10)

/-- The shortest decimal numeral of a byte (44_io.md R130). -/
def decimal (v : Byte) : List Char :=
  let n := v.toNat
  if n < 10 then [digitChar n]
  else if n < 100 then [digitChar (n / 10), digitChar n]
  else [digitChar (n / 100), digitChar (n / 10), digitChar n]

/-- The text of an event, without the line end, which is the consumer's (44_io.md R132; log 10). -/
def Event.line (e : Event) : List Char :=
  match e.kind with
  | .num => decimal e.value
  | .chr => [Char.ofNat e.value.toNat]

end Sys2Proof.Machine
end

