-- ==== Sys2Proof/Machine/Stack.lean ====
section
/-! DEFINITION. The stack instructions PUSH and POP (41_stack.md R81, R82). -/

namespace Sys2Proof.Machine

/-- PUSH: `x[a]` is read after the decrement, so PUSH R7 stores the decremented `sp` (41_stack.md R81; log 15). -/
def execPush (a : Byte) (s : State) : Result :=
  onReg (.push a) a s fun ra => push ((decSp s).reg ra) s

/-- POP: `x[a] <- MemRead(sp, 1)`, then `sp <- sp + 1`, so POP R7 ends with the loaded byte plus 1 (41_stack.md R82;
log 15). -/
def execPop (a : Byte) (s : State) : Result :=
  onReg (.pop a) a s fun ra => do
    let v ← memRead s.sp.toNat s
    return incSp (s.setReg ra v)

end Sys2Proof.Machine
end

