-- ==== Sys2Proof/Machine/Step.lean ====
section
/-! DEFINITION. One cycle of the engine (30_encoding.md R54 to R58), and an instruction placed where the next fetch reads
it. -/

namespace Sys2Proof.Machine

/-- One step. While RUNNING: one cycle, which ends in the next state or in fault entry; in HALTED and FAULTED nothing
changes (10_state.md R18). -/
def step (s : State) : Host.Outcome State Fault Refusal :=
  match s.status with
  | .running =>
    match fetchDecode s with
    | .ok i => exec i s
    | .error c => takeFault c s
  | .halted | .faulted => idle s

/-- `s` with the instruction whose bits are the low `nbits` bits of `w` stored at `pc`, `pc + 1` and `pc + 2`, the bits
above them 0: what the loader does for one instruction (70_reset_and_hazards.md R161; log 7). Where the fetch at `pc` would
leave the memory (`pc` of 254 and more, 30_encoding.md R54) no instruction can be placed and `s` is unchanged. -/
def State.withFetchWord (s : State) (nbits w : Nat) : State :=
  if s.pc.toNat + 2 < Config.hardware.memSize then
    { s with mem :=
        Memory.putBytes s.mem s.pc.toNat [tableByte nbits w 0, tableByte nbits w 1, tableByte nbits w 2] }
  else s

end Sys2Proof.Machine
end

