-- ==== Sys2Proof/WellFormed.lean ====
section
/-! DEFINITION. When an instruction is well formed: every register operand of its format names a register
(30_encoding.md R52, R53). An ill-formed instruction still decodes; it raises OutOfRangeAccess when it is dispatched
(R57). -/

namespace Sys2Proof

/-- The register operands of an instruction, in the order they are checked (30_encoding.md R53, R57). -/
def Instr.regOperands : Instr → List Byte
  | .nop | .hlt | .ret | .iret => []
  | .push a | .pop a | .prn a | .pra a => [a]
  | .call a | .jmp a | .jeq a | .jne a | .jgt a | .jlt a | .jle a | .jge a => [a]
  | .inc a | .dec a | .not a => [a]
  | .ldi a _ | .addi a _ => [a]
  | .ld a b | .st a b => [a, b]
  | .add a b | .sub a b | .mul a b | .div a b | .mod a b | .cmp a b => [a, b]
  | .and a b | .or a b | .xor a b | .shl a b | .shr a b => [a, b]

/-- An operand byte names a register exactly when it is below `NREG` (30_encoding.md R52). -/
def namesRegister (b : Byte) : Bool := decide (b.toNat < Config.hardware.nreg)

/-- Every register operand names a register. -/
def Instr.wf (i : Instr) : Bool := i.regOperands.all namesRegister

end Sys2Proof
end

