-- ==== Sys2Proof/Safety.lean ====
section
/-! DEFINITION. The terms in which claims about the machine are made: the invariant of every step, fault entry as the spec
lists it, which fault a cycle ends in, and what each instruction may write. -/

namespace Sys2Proof.Safety

open Sys2Proof.Machine

/-! ## Fault entry and the fault of a cycle -/

/-- The state after `raise <Cause>(detail)`, field by field: status FAULTED, the record written, all else as it was
(60_exceptions.md R145). -/
def faultEntry (c : FaultCause) (s : State) : State :=
  { regs := s.regs, pc := s.pc, fl := s.fl, status := .faulted, fault := some { cause := c, faultPc := s.pc },
    mem := s.mem, trace := s.trace }

/-- The details 60_exceptions.md R140 allows: an illegal opcode byte; the opcode of DIV or MOD; (MEM, 256) or (REG, a byte of
8 or more). -/
def DetailListed : FaultCause → Prop
  | .decodeError opcode => lookupOpcode opcode = none
  | .arithmeticError opcode => opcode = 0xA3 ∨ opcode = 0xA4
  | .outOfRangeAccess .mem index => index = 256
  | .outOfRangeAccess .reg index => 8 ≤ index ∧ index ≤ 255

/-- The register that holds the divisor, for DIV and MOD (43_alu.md R114, R115). -/
def divisorOperand : Instr → Option Byte
  | .div _ b | .mod _ b => some b
  | _ => none

/-- The value of the register that an operand byte names, if it names one. -/
def operandValue (s : State) (b : Byte) : Option Byte := s.regs[b.toNat]?

/-- Whether an instruction divides by a register holding 0. -/
def dividesByZero (i : Instr) (s : State) : Bool :=
  match divisorOperand i with
  | some b => operandValue s b == some 0
  | none => false

/-- The fault in which an instruction ends when it is dispatched: a register operand that names no register, `operand_a`
before `operand_b`, then a zero divisor (60_exceptions.md R144, points 3 to 5). -/
def dispatchFault (i : Instr) (s : State) : Option FaultCause :=
  match i.regOperands.find? (fun b => !namesRegister b) with
  | some b => some (.outOfRangeAccess .reg b.toNat)
  | none => if dividesByZero i s then some (.arithmeticError (opcodeOf i)) else none

/-- The byte of the memory cell at distance `k` from the program counter. -/
def byteAtPc (s : State) (k : Nat) : Byte := s.mem.get (s.pc.toNat + k)

/-- The instruction that stands at the program counter, if its opcode has a handler (30_encoding.md R54 to R56). -/
def instrAtPc (s : State) : Option Instr :=
  match decode (byteAtPc s 0) (byteAtPc s 1) (byteAtPc s 2) with
  | .ok i => some i
  | .error _ => none

/-- The fault in which a cycle ends, by the priority of 60_exceptions.md R144, for `pc` in 0..256. -/
def cycleFault (s : State) : Option FaultCause :=
  if 254 ≤ s.pc.toNat then some (.outOfRangeAccess .mem 256)
  else
    match instrAtPc s with
    | none => some (.decodeError (byteAtPc s 0))
    | some i => dispatchFault i s

/-! ## The invariant -/

/-- What every state of a run satisfies: memory in canonical form and inside the address space; `pc` in 0..256
(10_state.md R14); a fault record exactly in FAULTED (60_exceptions.md R140), of a listed detail and naming the `pc` at which
the engine stopped (R145). -/
structure Inv (s : State) : Prop where
  memCanonical : s.mem.wf = true
  pcInRange : s.pc.toNat ≤ 256
  recordIffFaulted : s.status = .faulted ↔ s.fault.isSome
  recordListed : ∀ r, s.fault = some r → DetailListed r.cause ∧ r.faultPc = s.pc

/-! ## What an instruction may do -/

/-- "CALL, all jumps, RET, IRET": the instructions whose handler writes `pc` (30_encoding.md R51). -/
def transfersControl : Instr → Bool
  | .call _ | .ret | .iret | .jmp _ => true
  | .jeq _ | .jne _ | .jgt _ | .jlt _ | .jle _ | .jge _ => true
  | _ => false

/-- The six conditional jumps, the only readers of `fl` (10_state.md R17). -/
def readsFlags : Instr → Bool
  | .jeq _ | .jne _ | .jgt _ | .jlt _ | .jle _ | .jge _ => true
  | _ => false

/-- The operand byte of the register an instruction writes by name (10_state.md R12). -/
def destOperand : Instr → Option Byte
  | .ldi a _ | .ld a _ | .pop a => some a
  | .add a _ | .sub a _ | .mul a _ | .div a _ | .mod a _ | .addi a _ => some a
  | .inc a | .dec a | .and a _ | .or a _ | .xor a _ | .not a | .shl a _ | .shr a _ => some a
  | _ => none

/-- The instructions that move `sp` without naming it (10_state.md R11, R13). -/
def movesStack : Instr → Bool
  | .push _ | .pop _ | .call _ | .ret | .iret => true
  | _ => false

/-- Whether the spec lets an instruction write register `r`: it names `r` as its destination, or moves the stack and `r` is 7,
or is IRET (10_state.md R12, R13). -/
def mayWriteReg (i : Instr) (r : RegIndex) : Bool :=
  (destOperand i).any (fun a => a.toNat == r.val) || (movesStack i && r == Config.hardware.spIndex) || i == .iret

/-- The cell an instruction stores to: `x[a]` for ST, `sp` after the decrement for PUSH and CALL (20_memory.md R33). -/
def storeAddress (i : Instr) (s : State) : Option Byte :=
  match i with
  | .st a _ => operandValue s a
  | .push _ | .call _ => some (decSp s).sp
  | _ => none

/-- The event an instruction emits (44_io.md R130, R131). -/
def emitted (i : Instr) (s : State) : List Event :=
  match i with
  | .prn a => ((operandValue s a).map (Event.mk .num)).toList
  | .pra a => ((operandValue s a).map (Event.mk .chr)).toList
  | _ => []

/-! ## Forms shared by the statements about one instruction -/

/-- Encoding and Faults lines of a rule for format F1R: the bytes `opcode, a` decode to the instruction, and an index of 8 or
more is OutOfRangeAccess(REG, a) with no effect. -/
def CheckedR (opcode : Byte) (mk : Byte → Instr) : Prop :=
  ∀ a : Byte, (∀ junk, decode opcode a junk = .ok (mk a)) ∧
    ∀ s, 8 ≤ a.toNat → exec (mk a) s = .next (faultEntry (.outOfRangeAccess .reg a.toNat) s)

/-- The same for format F2RR: `operand_a` is reported before `operand_b`. -/
def CheckedRR (opcode : Byte) (mk : Byte → Byte → Instr) : Prop :=
  ∀ a b : Byte, decode opcode a b = .ok (mk a b) ∧
    ∀ s, (8 ≤ a.toNat → exec (mk a b) s = .next (faultEntry (.outOfRangeAccess .reg a.toNat) s)) ∧
      (a.toNat < 8 → 8 ≤ b.toNat → exec (mk a b) s = .next (faultEntry (.outOfRangeAccess .reg b.toNat) s))

/-- The same for format F2RI: the immediate is not checked. -/
def CheckedRI (opcode : Byte) (mk : Byte → Byte → Instr) : Prop :=
  ∀ a imm : Byte, decode opcode a imm = .ok (mk a imm) ∧
    ∀ s, 8 ≤ a.toNat → exec (mk a imm) s = .next (faultEntry (.outOfRangeAccess .reg a.toNat) s)

/-- Encoding line of a rule for format F0: the two bytes after the opcode are ignored. -/
def EncodedBare (opcode : Byte) (i : Instr) : Prop := ∀ junk junk' : Byte, decode opcode junk junk' = .ok i

/-- The fetch fault of an instruction at address 254 or above (30_encoding.md R54). -/
def FetchFaultsAtTop : Prop :=
  ∀ s : State, s.status = .running → 254 ≤ s.pc.toNat → s.pc.toNat ≤ 256 →
    step s = .next (faultEntry (.outOfRangeAccess .mem 256) s)

/-- `x[a] <- f(x[a], x[b]) mod 256; pc <- pc + 3`, nothing else changed, for an exact integer function `f`. -/
def ComputesRR (mk : Byte → Byte → Instr) (f : Int → Int → Int) : Prop :=
  ∀ (a b : Byte) (s : State) (ha : a.toNat < 8) (hb : b.toNat < 8), ∃ v : Byte,
    (v.toNat : Int) = f s.regs[a.toNat].toNat s.regs[b.toNat].toNat % 256 ∧
    exec (mk a b) s = .next { s with regs := s.regs.set a.toNat v, pc := s.pc + 3 }

/-- `x[a] <- f(x[a]) mod 256; pc <- pc + 2`, nothing else changed. -/
def ComputesR (mk : Byte → Instr) (f : Int → Int) : Prop :=
  ∀ (a : Byte) (s : State) (ha : a.toNat < 8), ∃ v : Byte,
    (v.toNat : Int) = f s.regs[a.toNat].toNat % 256 ∧
    exec (mk a) s = .next { s with regs := s.regs.set a.toNat v, pc := s.pc + 2 }

/-- Bit `i` of `x[a]` becomes `f` of the bits `i` of `x[a]` and `x[b]`; `pc <- pc + 3`, nothing else changed. -/
def ComputesBits (mk : Byte → Byte → Instr) (f : Bool → Bool → Bool) : Prop :=
  ∀ (a b : Byte) (s : State) (ha : a.toNat < 8) (hb : b.toNat < 8), ∃ v : Byte,
    (∀ i < 8, v.getLsbD i = f (s.regs[a.toNat].getLsbD i) (s.regs[b.toNat].getLsbD i)) ∧
    exec (mk a b) s = .next { s with regs := s.regs.set a.toNat v, pc := s.pc + 3 }

/-- Division: a zero divisor is ArithmeticError with the opcode byte and no effect; otherwise `x[a] <- f(x[a], x[b])`,
`pc <- pc + 3`, nothing else changed. -/
def DividesRR (opcode : Byte) (mk : Byte → Byte → Instr) (f : Nat → Nat → Nat) : Prop :=
  ∀ (a b : Byte) (s : State) (ha : a.toNat < 8) (hb : b.toNat < 8),
    (s.regs[b.toNat] = 0 → exec (mk a b) s = .next (faultEntry (.arithmeticError opcode) s)) ∧
    (s.regs[b.toNat] ≠ 0 → ∃ v : Byte, v.toNat = f s.regs[a.toNat].toNat s.regs[b.toNat].toNat ∧
      exec (mk a b) s = .next { s with regs := s.regs.set a.toNat v, pc := s.pc + 3 })

/-- A conditional jump: to `x[a]` where the condition on `fl` holds, else to `pc + 2`; nothing else changed. -/
def JumpsWhen (mk : Byte → Instr) (cond : Byte → Prop) : Prop :=
  ∀ (a : Byte) (s : State) (ha : a.toNat < 8), ∃ p : PcWord,
    (cond s.fl → p.toNat = s.regs[a.toNat].toNat) ∧ (¬ cond s.fl → p = s.pc + 2) ∧
    exec (mk a) s = .next { s with pc := p }

/-- `t` is `s` but for the cell `addr`, which holds `v`, read byte by byte. -/
def StoresByte (s t : State) (addr : Nat) (v : Byte) : Prop :=
  ∀ x : Nat, t.mem.get x = if x = addr then v else s.mem.get x

end Sys2Proof.Safety
end

