-- ==== Sys2Proof/Certificates/Slice0/Obligations.lean ====
section
/-! DEFINITION. The statements for the provers. Each docstring names the rule of spec/ it formalises; where a rule rests on
one of the spec's own decisions (92_eei_decisions.md) the docstring names that decision. In every statement the number of an
opcode byte is the spec's, from general knowledge (D1, for ADDI D2; log 8), and the fault of an invalid register index is the
spec's choice D8. -/

open Sys2Proof Sys2Proof.Machine Sys2Proof.Safety

/-! ## Reset, load, status -/

/-- 10_state.md R22: the value of every piece of state after reset. R22 calls the fault record "none / meaningless"; that the
cause code reads 0, "no fault", rests on 60_exceptions.md R140 (the spec's own, 92_eei_decisions.md D14) and on the model's
choice of an absent record (log 3). The empty trace is the spec's own too (D17). -/
def Obligations.ResetState : Prop :=
  (∀ (r : Nat) (h : r < 7), State.reset.regs[r] = 0) ∧ State.reset.regs[7] = 0xF4 ∧ State.reset.pc = 0 ∧
  State.reset.fl = 0 ∧ State.reset.status = .running ∧ State.reset.faultCode = 0 ∧
  (∀ addr : Nat, State.reset.mem.get addr = 0) ∧ State.reset.trace = []

/-- 70_reset_and_hazards.md R161: an image of at most 256 bytes is in memory from address 0, padded with zeros, everything
else as after reset; a longer image has no launch state (92_eei_decisions.md D19). -/
def Obligations.LaunchHoldsImage : Prop :=
  ∀ image : List Byte,
    (image.length ≤ 256 → ∃ t, launch image = some t ∧ (∀ addr : Nat, t.mem.get addr = image.getD addr 0) ∧
      t.mem.wf = true ∧ t = { State.reset with mem := t.mem }) ∧
    (256 < image.length → launch image = none)

/-- 10_state.md R18: reset leaves RUNNING; HALTED is entered by HLT and by nothing else; FAULTED is entered by a raised fault
with its record; in HALTED and FAULTED nothing ever changes (92_eei_decisions.md D14; log 2). -/
def Obligations.StatusTransitions : Prop :=
  State.reset.status = .running ∧
  (∀ s t : State, s.status = .running → s.pc.toNat ≤ 253 → step s = .next t →
    (t.status = .halted ↔ instrAtPc s = some .hlt)) ∧
  (∀ s t : State, s.status = .running → step s = .next t → t.status ≠ .running →
    (t.status = .halted ∧ instrAtPc s = some .hlt) ∨ ∃ c, t = faultEntry c s) ∧
  (∀ s : State, s.status ≠ .running → ∀ k, Sys2Proof.core.run k s = .next s)

/-- 70_reset_and_hazards.md R165: while RUNNING the engine always has exactly one next step; fault entry is one too. -/
def Obligations.EngineNeverStalls : Prop := ∀ s : State, s.status = .running → ∃! t, step s = .next t

/-! ## Invariant -/

/-- The invariant holds after reset (10_state.md R14, R22; 60_exceptions.md R140). -/
def Obligations.ResetMeetsInvariant : Prop := Inv State.reset

/-- Every step keeps the invariant: canonical memory, `pc` in 0..256, a listed fault record exactly in FAULTED. -/
def Obligations.StepKeepsInvariant : Prop := ∀ s t : State, Inv s → step s = .next t → Inv t

/-- Every launch state meets the invariant, so that every state of every run does. -/
def Obligations.LaunchMeetsInvariant : Prop := ∀ (image : List Byte) (t : State), launch image = some t → Inv t

/-! ## Memory -/

/-- 20_memory.md R31, R32: a read gives the cell's content; a write sets one cell and changes nothing else; an address above
255 faults with that address and is never reduced (92_eei_decisions.md D7). -/
def Obligations.MemoryAccess : Prop :=
  ∀ (s : State) (addr : Nat) (v : Byte),
    (addr ≤ 255 → memRead addr s = .ok (s.mem.get addr) ∧
      ∃ t, memWrite addr v s = .ok t ∧ t = { s with mem := t.mem } ∧ StoresByte s t addr v ∧
        memRead addr t = .ok v) ∧
    (255 < addr → memRead addr s = .error (.outOfRangeAccess .mem addr) ∧
      memWrite addr v s = .error (.outOfRangeAccess .mem addr))

/-- The canonical form of memory (log 6) holds one list for each content: two canonical memories that read alike are
equal. -/
def Obligations.MemoryCanonical : Prop :=
  ∀ m m' : Memory, m.wf = true → m'.wf = true → (∀ addr, m.get addr = m'.get addr) → m = m'

/-- 20_memory.md section 1: memory changes only at the cell ST, PUSH or CALL stores to; every other instruction leaves every
cell as it was. -/
def Obligations.OnlyStoresChangeMemory : Prop :=
  ∀ (i : Instr) (s t : State), exec i s = .next t →
    (∀ addr, storeAddress i s = some addr → ∀ x : Nat, x ≠ addr.toNat → t.mem.get x = s.mem.get x) ∧
    (storeAddress i s = none → ∀ x : Nat, t.mem.get x = s.mem.get x)

/-- 20_memory.md section 4: a store is seen by the next fetch, the bytes of the very next instruction included. -/
def Obligations.FetchSeesStore : Prop :=
  ∀ (a b : Byte) (s t : State) (ha : a.toNat < 8) (hb : b.toNat < 8), s.pc.toNat ≤ 250 →
    exec (.st a b) s = .next t → ∃ f, fetch t = .ok f ∧
      f.opcode = (if s.regs[a.toNat].toNat = s.pc.toNat + 3 then s.regs[b.toNat] else byteAtPc s 3) ∧
      f.operandA = (if s.regs[a.toNat].toNat = s.pc.toNat + 4 then s.regs[b.toNat] else byteAtPc s 4) ∧
      f.operandB = (if s.regs[a.toNat].toNat = s.pc.toNat + 5 then s.regs[b.toNat] else byteAtPc s 5)

/-! ## Encoding -/

/-- Words written out from the "Encoding" lines, one or more of each family (30_encoding.md R59; the opcode numbers are the
spec's, from general knowledge, log 8). -/
def Obligations.DecodesSpecWords : Prop :=
  decode 0b00000001 0xFF 0xFF = .ok .hlt ∧ decode 0b00010011 0x00 0x00 = .ok .iret ∧
  decode 0b01000101 0b00000111 0x00 = .ok (.push 7) ∧ decode 0b01010000 0b00000011 0x00 = .ok (.call 3) ∧
  decode 0b01011010 0b00000010 0x00 = .ok (.jge 2) ∧ decode 0b01011001 0b00000010 0x00 = .ok (.jle 2) ∧
  decode 0b10000010 0b00000001 0b11111110 = .ok (.ldi 1 0xFE) ∧
  decode 0b10000100 0b00000010 0b00000001 = .ok (.st 2 1) ∧
  decode 0b10100001 0b00000000 0b00000001 = .ok (.sub 0 1) ∧
  decode 0b10101110 0b00000000 0b00001001 = .ok (.addi 0 9) ∧
  decode 0b01001000 0b00000000 0x00 = .ok (.pra 0) ∧
  decode 0b01010010 0b00000000 0x00 = .error (.noHandler 0x52)

/-- Decoding the bytes of any instruction gives it back, every operand byte at every value, whatever bytes follow it. -/
def Obligations.DecodeEncodeRoundTrip : Prop :=
  ∀ (i : Instr) (junk junk' : Byte) (rest : List Byte), decodeBytes (encode i ++ junk :: junk' :: rest) = .ok i

/-- The other direction: the bytes that decode to an instruction are its encoding, of the length the opcode's bits 7:6 give;
the fetched bytes beyond it are ignored (30_encoding.md R50, R53). -/
def Obligations.EncodeDecodeRoundTrip : Prop :=
  ∀ (opcode operandA operandB : Byte) (i : Instr), decode opcode operandA operandB = .ok i →
    encode i = [opcode, operandA, operandB].take (instructionLength opcode)

/-- 30_encoding.md R61: a byte that is none of the 34 opcodes raises DecodeError, whatever the operand bytes; 60, 49, 49 and
64 bytes are illegal by bits 7:6; as an operand any byte is harmless; at address 254 or 255 the fetch fault comes first
(92_eei_decisions.md D1, D22; log 8). -/
def Obligations.IllegalOpcodesFault : Prop :=
  (∀ s : State, s.status = .running → s.pc.toNat ≤ 253 →
    (byteAtPc s 0).toNat ∉ [0x00, 0x01, 0x11, 0x13, 0x45, 0x46, 0x47, 0x48, 0x50, 0x54, 0x55, 0x56, 0x57, 0x58, 0x59,
      0x5A, 0x65, 0x66, 0x69, 0x82, 0x83, 0x84, 0xA0, 0xA1, 0xA2, 0xA3, 0xA4, 0xA7, 0xA8, 0xAA, 0xAB, 0xAC, 0xAD, 0xAE] →
    step s = .next (faultEntry (.decodeError (byteAtPc s 0)) s)) ∧
  (∀ k < 4, (List.range 64).countP (fun n => (lookupOpcode (BitVec.ofNat 8 (64 * k + n))).isNone) =
    [60, 49, 49, 64].getD k 0) ∧
  (∀ opcode : Byte, lookupOpcode opcode ≠ none → ∀ operandA operandB, ∃ i, decode opcode operandA operandB = .ok i) ∧
  FetchFaultsAtTop

/-- 30_encoding.md R51, R53, R59: bits 7:6 of every opcode are the number of its operand bytes, and bit 4 is 1 exactly for the
instructions R51 lists, CALL, all jumps, RET, IRET. The agreement of the rows is the spec's inference (R66), on the one map the
model fixes (log 8, log 19); what execution does to `pc` is `ProgramCounterChange`. -/
def Obligations.OpcodeBitsMatchFormat : Prop :=
  ∀ i : Instr, operandCount (opcodeOf i) = (operandBytes i).length ∧ setsPc (opcodeOf i) = transfersControl i

/-! ## The cycle -/

/-- A step runs the decoded instruction: where the three bytes at `pc` decode, the step is the instruction's meaning, which
moves `pc` itself (30_encoding.md R54 to R58). -/
def Obligations.StepRunsDecoded : Prop :=
  ∀ (s : State) (i : Instr), s.status = .running → s.pc.toNat ≤ 253 →
    decode (s.mem.get s.pc.toNat) (s.mem.get (s.pc.toNat + 1)) (s.mem.get (s.pc.toNat + 2)) = .ok i →
    step s = exec i s

/-- 30_encoding.md R54: three bytes are read in every cycle; the fetch faults with (MEM, 256) exactly when `pc >= 254`
(92_eei_decisions.md D10). -/
def Obligations.FetchReadsThreeBytes : Prop :=
  (∀ s : State, s.pc.toNat ≤ 253 → fetch s = .ok ⟨byteAtPc s 0, byteAtPc s 1, byteAtPc s 2⟩) ∧
  (∀ s : State, 254 ≤ s.pc.toNat → s.pc.toNat ≤ 256 → fetch s = .error (.outOfRangeAccess .mem 256)) ∧
  FetchFaultsAtTop

/-- 10_state.md R15: in a cycle `pc` is unchanged by a fault and by HLT, advances by `operand_count + 1` without wrap for
`sets_pc = 0`, and for `sets_pc = 1` becomes a byte or, for a conditional jump, `pc + 2` (92_eei_decisions.md D9, D15). -/
def Obligations.ProgramCounterChange : Prop :=
  ∀ s t : State, s.status = .running → step s = .next t →
    (t.status = .faulted → t.pc = s.pc) ∧ (t.status = .halted → t.pc = s.pc) ∧
    (t.status = .running → s.pc.toNat ≤ 253 ∧ ∃ i, instrAtPc s = some i ∧
      (setsPc (byteAtPc s 0) = false → t.pc.toNat = s.pc.toNat + operandCount (byteAtPc s 0) + 1) ∧
      (setsPc (byteAtPc s 0) = true → t.pc.toNat ≤ 255 ∧ transfersControl i = true) ∧
      (setsPc (byteAtPc s 0) = true → readsFlags i = true →
        t.pc.toNat = s.pc.toNat + 2 ∨ ∃ a ∈ operandBytes i, operandValue s a = some (t.pc.setWidth 8)))

/-- 30_encoding.md R57: the first register operand of 8 or more, in the order of the format, is OutOfRangeAccess(REG, byte)
before any effect, for every instruction with a register operand (92_eei_decisions.md D8). -/
def Obligations.OperandCheck : Prop :=
  ∀ (i : Instr) (s : State) (pre post : List Byte) (b : Byte), i.regOperands = pre ++ b :: post →
    (∀ p ∈ pre, p.toNat < 8) → 8 ≤ b.toNat →
    exec i s = .next (faultEntry (.outOfRangeAccess .reg b.toNat) s)

/-- Every well-formed instruction completes: unless it divides by zero, it leaves the engine running, or halted for HLT
(30_encoding.md R58). -/
def Obligations.WellFormedCompletes : Prop :=
  ∀ (i : Instr) (s : State), i.wf = true → s.status = .running → dividesByZero i s = false →
    ∃ t, exec i s = .next t ∧ t.status = (if i = .hlt then .halted else .running) ∧ t.fault = s.fault

/-- An instruction placed for the next fetch is the one the next step runs (70_reset_and_hazards.md R161; log 7). -/
def Obligations.PlacedWordRuns : Prop :=
  ∀ (s : State) (nbits w : Nat) (i : Instr), s.status = .running → s.pc.toNat ≤ 253 → decodeTableWord nbits w = some i →
    step (s.withFetchWord nbits w) = exec i (s.withFetchWord nbits w)

/-! ## Faults -/

/-- 60_exceptions.md R144: which fault a cycle ends in, by priority, and that a cycle with none of the conditions ends in no
fault (92_eei_decisions.md D16). -/
def Obligations.FaultPriority : Prop :=
  ∀ s : State, s.status = .running → s.pc.toNat ≤ 256 →
    (∀ c, cycleFault s = some c → step s = .next (faultEntry c s)) ∧
    (cycleFault s = none → ∃ t, step s = .next t ∧ t.status ≠ .faulted)

/-- 60_exceptions.md R145: faults are precise. A cycle that ends FAULTED changed the status and the fault record and nothing
else, and the record names the `pc` of the cycle and a cause with its code (92_eei_decisions.md D14, D15, D26). -/
def Obligations.FaultsArePrecise : Prop :=
  ∀ s t : State, s.status = .running → step s = .next t → t.status = .faulted →
    t.regs = s.regs ∧ t.pc = s.pc ∧ t.fl = s.fl ∧ t.mem = s.mem ∧ t.trace = s.trace ∧
    ∃ c, t.fault = some { cause := c, faultPc := s.pc } ∧ t.faultCode = c.code ∧ c.code ∈ [1, 2, 3]

/-- Cause codes and details of 60_exceptions.md R140 over the states of a run: code 0 while not FAULTED; 1 with an illegal
opcode byte, 2 with the opcode of DIV or MOD, 3 with (MEM, 256) or (REG, 8..255) in FAULTED. -/
def Obligations.FaultRecordCodes : Prop :=
  ∀ s : State, Inv s →
    (s.status ≠ .faulted → s.faultCode = 0) ∧
    (s.status = .faulted → ∃ c, s.fault = some { cause := c, faultPc := s.pc } ∧
      ((∃ opcode, c = .decodeError opcode ∧ s.faultCode = 1 ∧ ∀ a b, decode opcode a b = .error (.noHandler opcode)) ∨
       ((c = .arithmeticError 0xA3 ∨ c = .arithmeticError 0xA4) ∧ s.faultCode = 2) ∨
       ((c = .outOfRangeAccess .mem 256 ∨ ∃ b : Byte, 8 ≤ b.toNat ∧ c = .outOfRangeAccess .reg b.toNat) ∧
         s.faultCode = 3)))

/-! ## Whole-machine rules -/

/-- 10_state.md section 1 and 60_exceptions.md section 4: a step changes a register only where the instruction names it as its
destination, moves the stack (register 7), or is IRET; the hardware never changes registers 5 and 6 on its own. -/
def Obligations.RegisterWriters : Prop :=
  ∀ (s t : State) (r : RegIndex), step s = .next t → t.regs[r.val] ≠ s.regs[r.val] →
    ∃ i, instrAtPc s = some i ∧ mayWriteReg i r = true

/-- 43_alu.md R126: only CMP and IRET write the flags; the other ALU instructions leave all 8 bits, faulting or not. -/
def Obligations.FlagWriters : Prop :=
  ∀ (i : Instr) (s t : State), exec i s = .next t → t.fl ≠ s.fl → i = .iret ∨ ∃ a b, i = .cmp a b

/-- 10_state.md section 3: only the six conditional jumps read `fl`. Any other instruction does the same in every other respect
whatever `fl` holds. -/
def Obligations.FlagsReadOnlyByJumps : Prop :=
  ∀ (i : Instr) (s t : State) (f : Byte), readsFlags i = false → exec i s = .next t →
    ∃ t', exec i { s with fl := f } = .next t' ∧ { t' with fl := t.fl } = t

/-- 10_state.md section 3 and section 5: bits 7:3 of `fl` have no influence: two states that agree but for those bits step to
states that agree but for those bits (92_eei_decisions.md D12). -/
def Obligations.HighFlagBitsUnread : Prop :=
  ∀ (s t : State) (f : Byte), (∀ k < 3, f.getLsbD k = s.fl.getLsbD k) → step s = .next t →
    ∃ t', step { s with fl := f } = .next t' ∧ { t' with fl := t.fl } = t ∧ ∀ k < 3, t'.fl.getLsbD k = t.fl.getLsbD k

/-- 44_io.md section on the output port: an instruction appends at most one event, that of PRN or PRA with a valid register,
and a fault emits none. -/
def Obligations.TraceOnlyGrows : Prop :=
  ∀ (s t : State), s.status = .running → step s = .next t →
    (cycleFault s ≠ none → t.trace = s.trace) ∧
    (∀ i, s.pc.toNat ≤ 253 → instrAtPc s = some i → t.trace = s.trace ++ emitted i s)

/-- 10_state.md section 5: the trace influences no later step. -/
def Obligations.TraceNeverRead : Prop :=
  ∀ (s t : State) (past : List Event), step s = .next t →
    ∃ t' new, step { s with trace := past } = .next t' ∧ t.trace = s.trace ++ new ∧ t' = { t with trace := past ++ new }

/-- 44_io.md R130, text form: the numeral of a byte is made of decimal digits, has that value, and has no leading
zero: a text that begins with `0` is `0` alone, so 0 is `0` and every text is the shortest. -/
def Obligations.DecimalText : Prop :=
  ∀ v : Byte,
    Event.line ⟨.num, v⟩ ≠ [] ∧ (∀ c ∈ Event.line ⟨.num, v⟩, 48 ≤ c.toNat ∧ c.toNat ≤ 57) ∧
    (Event.line ⟨.num, v⟩).foldl (fun n c => 10 * n + (c.toNat - 48)) 0 = v.toNat ∧
    ((Event.line ⟨.num, v⟩).head? = some '0' → Event.line ⟨.num, v⟩ = ['0']) ∧ Event.line ⟨.chr, v⟩ = [Char.ofNat v.toNat]

/-! ## Data move -/

/-- 40_data_move.md R70. -/
def Obligations.LdiRule : Prop :=
  CheckedRI 0x82 .ldi ∧
  ∀ (a imm : Byte) (s : State) (ha : a.toNat < 8),
    exec (.ldi a imm) s = .next { s with regs := s.regs.set a.toNat imm, pc := s.pc + 3 }

/-- 40_data_move.md R71. -/
def Obligations.LdRule : Prop :=
  CheckedRR 0x83 .ld ∧
  ∀ (a b : Byte) (s : State) (ha : a.toNat < 8) (hb : b.toNat < 8),
    exec (.ld a b) s =
      .next { s with regs := s.regs.set a.toNat (s.mem.get s.regs[b.toNat].toNat), pc := s.pc + 3 }

/-- 40_data_move.md R72: the address register comes first. -/
def Obligations.StRule : Prop :=
  CheckedRR 0x84 .st ∧
  ∀ (a b : Byte) (s : State) (ha : a.toNat < 8) (hb : b.toNat < 8), ∃ t, exec (.st a b) s = .next t ∧
    t = { s with mem := t.mem, pc := s.pc + 3 } ∧ StoresByte s t s.regs[a.toNat].toNat s.regs[b.toNat]

/-! ## Stack -/

/-- 41_stack.md R80: push pre-decrements and stores at the new `sp`; pop reads at `sp` and post-increments, memory unchanged;
neither faults, `sp` wraps (92_eei_decisions.md D11). -/
def Obligations.StackPrimitives : Prop :=
  (∀ (s : State) (v : Byte), ∃ t, push v s = .ok t ∧
    t = { s with regs := s.regs.set 7 (s.regs[7] - 1), mem := t.mem } ∧ StoresByte s t (s.regs[7] - 1).toNat v) ∧
  (∀ s : State, pop s = .ok (s.mem.get s.regs[7].toNat, { s with regs := s.regs.set 7 (s.regs[7] + 1) }))

/-- 41_stack.md R81: `x[a]` is read after the decrement (92_eei_decisions.md D20). -/
def Obligations.PushRule : Prop :=
  CheckedR 0x45 .push ∧ FetchFaultsAtTop ∧
  ∀ (a : Byte) (s : State) (ha : a.toNat < 8), ∃ t, exec (.push a) s = .next t ∧
    t = { s with regs := s.regs.set 7 (s.regs[7] - 1), mem := t.mem, pc := s.pc + 2 } ∧
    StoresByte s t (s.regs[7] - 1).toNat (s.regs.set 7 (s.regs[7] - 1))[a.toNat]

/-- 41_stack.md R82: the register is loaded, then `sp` is incremented (92_eei_decisions.md D20). -/
def Obligations.PopRule : Prop :=
  CheckedR 0x46 .pop ∧ FetchFaultsAtTop ∧
  ∀ (a : Byte) (s : State) (ha : a.toNat < 8),
    exec (.pop a) s = .next { s with
      regs := (s.regs.set a.toNat (s.mem.get s.regs[7].toNat)).set 7
        ((s.regs.set a.toNat (s.mem.get s.regs[7].toNat))[7] + 1)
      pc := s.pc + 2 }

/-- 41_stack.md section of PUSH and POP, the source's property: PUSH then POP on the same register leaves every register,
`sp` included, as it was. -/
def Obligations.PushPopRoundTrip : Prop :=
  ∀ (a : Byte) (s t u : State), a.toNat < 8 → exec (.push a) s = .next t → exec (.pop a) t = .next u →
    u.regs = s.regs ∧ u.pc = s.pc + 4 ∧ u.mem = t.mem

/-! ## Control -/

/-- 42_control.md R91: the return address `pc + 2` is pushed, then `pc <- x[a]` with `x[a]` read after the push
(92_eei_decisions.md D20); it holds wherever CALL can execute, `pc <= 253`. -/
def Obligations.CallRule : Prop :=
  CheckedR 0x50 .call ∧
  ∀ (a : Byte) (s : State) (ha : a.toNat < 8), s.pc.toNat ≤ 253 → ∃ t, exec (.call a) s = .next t ∧
    t = { s with regs := s.regs.set 7 (s.regs[7] - 1), mem := t.mem, pc := t.pc } ∧
    t.pc.toNat = (s.regs.set 7 (s.regs[7] - 1))[a.toNat].toNat ∧
    (t.mem.get (s.regs[7] - 1).toNat).toNat = s.pc.toNat + 2 ∧
    ∀ x : Nat, x ≠ (s.regs[7] - 1).toNat → t.mem.get x = s.mem.get x

/-- 42_control.md R92. -/
def Obligations.RetRule : Prop :=
  EncodedBare 0x11 .ret ∧
  ∀ s : State, ∃ p : PcWord, p.toNat = (s.mem.get s.regs[7].toNat).toNat ∧
    exec .ret s = .next { s with regs := s.regs.set 7 (s.regs[7] + 1), pc := p }

/-- 42_control.md R92, the source's property: a CALL and a RET that finds `sp` and the return cell as CALL left them, whatever
else the subroutine changed, return to `call_address + 2` with `sp` as before the CALL and every other register as the
subroutine left it. -/
def Obligations.CallRetRoundTrip : Prop :=
  ∀ (a : Byte) (s t u v : State), a.toNat < 8 → s.pc.toNat ≤ 253 → exec (.call a) s = .next t →
    u.regs[7] = t.regs[7] → u.mem.get t.regs[7].toNat = t.mem.get t.regs[7].toNat → exec .ret u = .next v →
    v.pc.toNat = s.pc.toNat + 2 ∧ v.regs = u.regs.set 7 s.regs[7]

/-- 42_control.md R93. -/
def Obligations.JmpRule : Prop := CheckedR 0x54 .jmp ∧ JumpsWhen .jmp (fun _ => True)

/-- 42_control.md R94, R96 to R99: JEQ, JGT, JLT, JGE, JLE as functions of the whole flags byte. -/
def Obligations.ConditionalJumps : Prop :=
  CheckedR 0x55 .jeq ∧ JumpsWhen .jeq (fun fl => fl.getLsbD 0 = true) ∧
  CheckedR 0x57 .jgt ∧ JumpsWhen .jgt (fun fl => fl.getLsbD 1 = true) ∧
  CheckedR 0x58 .jlt ∧ JumpsWhen .jlt (fun fl => fl.getLsbD 2 = true) ∧
  CheckedR 0x5A .jge ∧ JumpsWhen .jge (fun fl => fl.getLsbD 0 = true ∨ fl.getLsbD 1 = true) ∧
  CheckedR 0x59 .jle ∧ JumpsWhen .jle (fun fl => fl.getLsbD 0 = true ∨ fl.getLsbD 2 = true)

/-- JNE jumps where E is clear: the spec's own choice, "Jump iff E = 0" (92_eei_decisions.md D13, 42_control.md R95; log 12). -/
def Obligations.JneJumpsWhenEClear : Prop := CheckedR 0x56 .jne ∧ JumpsWhen .jne (fun fl => fl.getLsbD 0 = false)

/-- After CMP each conditional jump is taken exactly as the unsigned comparison of its operands says, so exactly one of JEQ,
JGT, JLT is taken (42_control.md section 1; the property is the source's, for JNE see D13). -/
def Obligations.CompareThenJump : Prop :=
  ∀ (a b c : Byte) (s t : State) (ha : a.toNat < 8) (hb : b.toNat < 8) (hc : c.toNat < 8),
    exec (.cmp a b) s = .next t →
    let jumps := fun (i : Instr) (taken : Prop) => ∃ p : PcWord, exec i t = .next { t with pc := p } ∧
      (taken → p.toNat = s.regs[c.toNat].toNat) ∧ (¬ taken → p = s.pc + 5)
    let x := s.regs[a.toNat].toNat
    let y := s.regs[b.toNat].toNat
    jumps (.jeq c) (x = y) ∧ jumps (.jgt c) (x > y) ∧ jumps (.jlt c) (x < y) ∧
    jumps (.jne c) (x ≠ y) ∧ jumps (.jge c) (x ≥ y) ∧ jumps (.jle c) (x ≤ y)

/-- 42_control.md R100: nine pops, `x[6]` to `x[0]`, then `fl`, then `pc`; addresses wrap modulo 256; `sp` rises by 9
(92_eei_decisions.md D11, D12, D21). -/
def Obligations.IretRule : Prop :=
  EncodedBare 0x13 .iret ∧
  ∀ s : State,
    let cell := fun k : Nat => s.mem.get ((s.regs[7].toNat + k) % 256)
    ∃ p : PcWord, p.toNat = (cell 8).toNat ∧
      exec .iret s = .next { s with
        regs := #v[cell 6, cell 5, cell 4, cell 3, cell 2, cell 1, cell 0, s.regs[7] + 9], fl := cell 7, pc := p }

/-- 42_control.md R101 (92_eei_decisions.md D15). -/
def Obligations.HltRule : Prop := EncodedBare 0x01 .hlt ∧ ∀ s : State, exec .hlt s = .next { s with status := .halted }

/-- 42_control.md R102. -/
def Obligations.NopRule : Prop := EncodedBare 0x00 .nop ∧ ∀ s : State, exec .nop s = .next { s with pc := s.pc + 1 }

/-! ## ALU -/

/-- 43_alu.md R111, R112, R113: the exact result modulo 256 (92_eei_decisions.md D4). -/
def Obligations.AddSubMulRule : Prop :=
  CheckedRR 0xA0 .add ∧ ComputesRR .add (fun x y => x + y) ∧
  CheckedRR 0xA1 .sub ∧ ComputesRR .sub (fun x y => x - y) ∧
  CheckedRR 0xA2 .mul ∧ ComputesRR .mul (fun x y => x * y)

/-- 43_alu.md R114, R115: unsigned quotient and remainder; a zero divisor faults with nothing written. -/
def Obligations.DivModRule : Prop :=
  CheckedRR 0xA3 .div ∧ DividesRR 0xA3 .div (fun x y => x / y) ∧
  CheckedRR 0xA4 .mod ∧ DividesRR 0xA4 .mod (fun x y => x % y)

/-- 43_alu.md section 1 (c): quotient and remainder of one division fit together, `x[a] = q * x[b] + r` with `r < x[b]`. -/
def Obligations.DivModFitTogether : Prop :=
  ∀ (a b : Byte) (s q r : State) (ha : a.toNat < 8) (hb : b.toNat < 8), s.regs[b.toNat] ≠ 0 →
    exec (.div a b) s = .next q → exec (.mod a b) s = .next r →
    s.regs[a.toNat].toNat = q.regs[a.toNat].toNat * s.regs[b.toNat].toNat + r.regs[a.toNat].toNat ∧
    r.regs[a.toNat].toNat < s.regs[b.toNat].toNat

/-- 43_alu.md R116: the second operand byte is an immediate and is not checked (its opcode byte: 92_eei_decisions.md D2). -/
def Obligations.AddiRule : Prop :=
  CheckedRI 0xAE .addi ∧
  ∀ (a imm : Byte) (s : State) (ha : a.toNat < 8), ∃ v : Byte,
    v.toNat = (s.regs[a.toNat].toNat + imm.toNat) % 256 ∧
    exec (.addi a imm) s = .next { s with regs := s.regs.set a.toNat v, pc := s.pc + 3 }

/-- 43_alu.md R117, R118, R122 (one register operand: 92_eei_decisions.md D3; log 11). -/
def Obligations.IncDecNotRule : Prop :=
  CheckedR 0x65 .inc ∧ ComputesR .inc (fun x => x + 1) ∧
  CheckedR 0x66 .dec ∧ ComputesR .dec (fun x => x - 1) ∧
  CheckedR 0x69 .not ∧ ComputesR .not (fun x => 255 - x)

/-- 43_alu.md R119, R120, R121, bit by bit (two register operands: 92_eei_decisions.md D3; log 11). -/
def Obligations.AndOrXorRule : Prop :=
  CheckedRR 0xA8 .and ∧ ComputesBits .and (fun p q => p && q) ∧
  CheckedRR 0xAA .or ∧ ComputesBits .or (fun p q => p || q) ∧
  CheckedRR 0xAB .xor ∧ ComputesBits .xor (fun p q => p != q)

/-- 43_alu.md R123, R124: the count is the whole byte, not reduced modulo 8 (92_eei_decisions.md D6; log 11). -/
def Obligations.ShiftRule : Prop :=
  CheckedRR 0xAC .shl ∧ ComputesRR .shl (fun x y => x * 2 ^ y.toNat) ∧
  CheckedRR 0xAD .shr ∧ ComputesRR .shr (fun x y => x / 2 ^ y.toNat)

/-- 43_alu.md R125: the whole flags byte is replaced by exactly one of E, L, G, unsigned; no register changes. -/
def Obligations.CmpRule : Prop :=
  CheckedRR 0xA7 .cmp ∧
  ∀ (a b : Byte) (s : State) (ha : a.toNat < 8) (hb : b.toNat < 8),
    exec (.cmp a b) s = .next { s with
      fl := if s.regs[a.toNat].toNat = s.regs[b.toNat].toNat then 0b00000001
        else if s.regs[a.toNat].toNat < s.regs[b.toNat].toNat then 0b00000100 else 0b00000010
      pc := s.pc + 3 }

/-! ## Output -/

/-- 44_io.md R130, R131: one event at the end of the trace, nothing else but the advance (92_eei_decisions.md D17). -/
def Obligations.PrintRule : Prop :=
  CheckedR 0x47 .prn ∧ CheckedR 0x48 .pra ∧
  ∀ (a : Byte) (s : State) (ha : a.toNat < 8),
    exec (.prn a) s = .next { s with trace := s.trace ++ [⟨.num, s.regs[a.toNat]⟩], pc := s.pc + 2 } ∧
    exec (.pra a) s = .next { s with trace := s.trace ++ [⟨.chr, s.regs[a.toNat]⟩], pc := s.pc + 2 }
end

