-- ==== Sys2Proof/Laws/Memory.lean ====
section
/-! SUPPORT. The laws of memory: what a cell reads as after a write, and that every memory operation keeps the canonical
form. -/

namespace Sys2Proof.Machine

theorem Memory.get_filter_self (m : Memory) (addr : Nat) :
    Memory.get (m.filter fun cell => cell.1 != addr) addr = 0#8 := by
  induction m with
  | nil => rfl
  | cons head rest ih =>
    by_cases h : head.1 = addr
    · simpa [List.filter_cons, h] using ih
    · simpa [List.filter_cons, h, Memory.get] using ih

theorem Memory.get_filter_ne (m : Memory) (addr x : Nat) (hx : x ≠ addr) :
    Memory.get (m.filter fun cell => cell.1 != addr) x = m.get x := by
  induction m with
  | nil => rfl
  | cons head rest ih =>
    by_cases h : head.1 = addr
    · have hne : head.1 ≠ x := fun e => hx (e.symm.trans h)
      simpa [List.filter_cons, h, Memory.get, Ne.symm hx] using ih
    · simp [h, Memory.get, ih]

/-- Reading after an insertion at an address that was free (read as 0). -/
theorem Memory.get_insert (m : Memory) (addr x : Nat) (v : Byte) (h : ∀ cell ∈ m, cell.1 ≠ addr) :
    Memory.get (Memory.insert (addr, v) m) x = if x = addr then v else m.get x := by
  induction m with
  | nil =>
    by_cases hx : x = addr
    · simp [Memory.insert, Memory.get, hx]
    · simp [Memory.insert, Memory.get, hx, Ne.symm hx]
  | cons head rest ih =>
    have hhead : head.1 ≠ addr := h head (by simp)
    have ih := ih fun cell hc => h cell (by simp [hc])
    by_cases hlt : addr < head.1
    · by_cases hx : x = addr
      · simp [Memory.insert, Memory.get, hlt, hx]
      · simp [Memory.insert, Memory.get, hlt, hx, Ne.symm hx]
    · by_cases hx : x = addr
      · subst hx; simpa [Memory.insert, Memory.get, hlt, hhead] using ih
      · simp [Memory.insert, Memory.get, hlt, ih, hx]

/-- A read after a write gives the value written, and a write leaves every other cell alone. -/
theorem Memory.get_put (m : Memory) (addr x : Nat) (v : Byte) :
    (m.put addr v).get x = if x = addr then v else m.get x := by
  unfold Memory.put
  by_cases hv : v = 0#8
  · by_cases hx : x = addr
    · subst hx; simp [hv, Memory.get_filter_self]
    · simp [hv, hx, Memory.get_filter_ne]
  · have hfree : ∀ cell ∈ m.filter (fun cell => cell.1 != addr), cell.1 ≠ addr := by simp
    by_cases hx : x = addr
    · simp [hv, Memory.get_insert _ _ _ _ hfree, hx]
    · simp [hv, Memory.get_insert _ _ _ _ hfree, hx, Memory.get_filter_ne]

theorem Memory.risingFrom_mono (m : Memory) {low low' : Nat} (h : low' ≤ low)
    (hm : Memory.risingFrom low m = true) : Memory.risingFrom low' m = true := by
  cases m with
  | nil => rfl
  | cons head rest =>
    simp only [Memory.risingFrom, Bool.and_eq_true, decide_eq_true_eq] at hm ⊢
    exact ⟨h.trans hm.1, hm.2⟩

theorem Memory.risingFrom_filter (m : Memory) (p : Host.Cell → Bool) (low : Nat)
    (hm : Memory.risingFrom low m = true) : Memory.risingFrom low (m.filter p) = true := by
  induction m generalizing low with
  | nil => rfl
  | cons head rest ih =>
    simp only [Memory.risingFrom, Bool.and_eq_true, decide_eq_true_eq] at hm
    by_cases hp : p head = true
    · simp only [List.filter_cons, hp, if_true, Memory.risingFrom, Bool.and_eq_true, decide_eq_true_eq]
      exact ⟨hm.1, ih _ hm.2⟩
    · simp only [List.filter_cons, hp]
      exact ih low (Memory.risingFrom_mono rest (Nat.le_succ_of_le hm.1) hm.2)

theorem Memory.risingFrom_insert (m : Memory) (addr low : Nat) (v : Byte) (hlow : low ≤ addr)
    (hm : Memory.risingFrom low m = true) (hfree : ∀ cell ∈ m, cell.1 ≠ addr) :
    Memory.risingFrom low (Memory.insert (addr, v) m) = true := by
  induction m generalizing low with
  | nil => simpa [Memory.insert, Memory.risingFrom] using hlow
  | cons head rest ih =>
    simp only [Memory.risingFrom, Bool.and_eq_true, decide_eq_true_eq] at hm
    have hhead : head.1 ≠ addr := hfree head (by simp)
    by_cases hlt : addr < head.1
    · simp only [Memory.insert, hlt, if_true, Memory.risingFrom, Bool.and_eq_true, decide_eq_true_eq]
      exact ⟨hlow, hlt, hm.2⟩
    · simp only [Memory.insert, hlt, if_false, Memory.risingFrom, Bool.and_eq_true, decide_eq_true_eq]
      exact ⟨hm.1, ih _ (by omega) hm.2 fun cell hc => hfree cell (by simp [hc])⟩

theorem Memory.mem_insert (m : Memory) (new cell : Host.Cell) (h : cell ∈ Memory.insert new m) :
    cell = new ∨ cell ∈ m := by
  induction m with
  | nil => simpa [Memory.insert] using h
  | cons head rest ih =>
    by_cases hlt : new.1 < head.1
    · simpa [Memory.insert, hlt] using h
    · simp only [Memory.insert, hlt, if_false, List.mem_cons] at h
      rcases h with h | h
      · exact .inr (by simp [h])
      · exact (ih h).imp id fun h => by simp [h]

/-- A write keeps the canonical form. -/
theorem Memory.wf_put (m : Memory) (addr : Nat) (v : Byte) (haddr : addr < 256) (hm : m.wf = true) :
    (m.put addr v).wf = true := by
  simp only [Memory.wf, Bool.and_eq_true, List.all_eq_true, decide_eq_true_eq, bne_iff_ne] at hm ⊢
  have hrise := Memory.risingFrom_filter m (fun cell => cell.1 != addr) 0 hm.1
  have hcells : ∀ cell ∈ m.filter (fun cell => cell.1 != addr), cell.1 < 256 ∧ cell.2 ≠ 0#8 :=
    fun cell hc => hm.2 cell (List.mem_of_mem_filter hc)
  by_cases hv : v = 0#8
  · simp only [Memory.put, hv, if_true]
    exact ⟨hrise, hcells⟩
  · simp only [Memory.put, hv, if_false]
    refine ⟨Memory.risingFrom_insert _ addr 0 v (Nat.zero_le _) hrise (by simp), fun cell hc => ?_⟩
    rcases Memory.mem_insert _ _ _ hc with h | h
    · exact h ▸ ⟨haddr, hv⟩
    · exact hcells cell h

/-- Writing a run of bytes inside the memory keeps the canonical form. -/
theorem Memory.wf_putBytes (m : Memory) (addr : Nat) (image : List Byte)
    (hlen : addr + image.length ≤ 256) (hm : m.wf = true) : (Memory.putBytes m addr image).wf = true := by
  induction image generalizing m addr with
  | nil => exact hm
  | cons v rest ih =>
    simp only [List.length_cons] at hlen
    exact ih _ _ (by omega) (Memory.wf_put m addr v (by omega) hm)

/-- What a cell holds after a run of bytes is written. -/
theorem Memory.get_putBytes (m : Memory) (addr x : Nat) (image : List Byte) :
    (Memory.putBytes m addr image).get x =
      if addr ≤ x ∧ x < addr + image.length then image.getD (x - addr) 0 else m.get x := by
  induction image generalizing m addr with
  | nil => simp [Memory.putBytes]
  | cons v rest ih =>
    simp only [Memory.putBytes, ih, Memory.get_put, List.length_cons]
    by_cases hx : x = addr
    · subst hx; simp
    · by_cases hin : addr + 1 ≤ x ∧ x < addr + 1 + rest.length
      · have h1 : addr ≤ x ∧ x < addr + (rest.length + 1) := by omega
        have h2 : x - addr = (x - (addr + 1)) + 1 := by omega
        simp [hin, h1, h2]
      · have h1 : ¬(addr ≤ x ∧ x < addr + (rest.length + 1)) := by omega
        rw [if_neg hin, if_neg h1, if_neg hx]

end Sys2Proof.Machine
end

