-- ==== Sys2Proof/Laws/State.lean ====
section
/-! SUPPORT. The small lemmas of State: for each update, what every field holds afterwards; and the register file read
after a register is written. -/

namespace Sys2Proof.Machine

variable (s : State)

@[simp] theorem State.regs_setReg (i : RegIndex) (v : Byte) : (s.setReg i v).regs = s.regs.set i.val v := rfl
@[simp] theorem State.pc_setReg (i : RegIndex) (v : Byte) : (s.setReg i v).pc = s.pc := rfl
@[simp] theorem State.fl_setReg (i : RegIndex) (v : Byte) : (s.setReg i v).fl = s.fl := rfl
@[simp] theorem State.status_setReg (i : RegIndex) (v : Byte) : (s.setReg i v).status = s.status := rfl
@[simp] theorem State.fault_setReg (i : RegIndex) (v : Byte) : (s.setReg i v).fault = s.fault := rfl
@[simp] theorem State.mem_setReg (i : RegIndex) (v : Byte) : (s.setReg i v).mem = s.mem := rfl
@[simp] theorem State.trace_setReg (i : RegIndex) (v : Byte) : (s.setReg i v).trace = s.trace := rfl

@[simp] theorem State.regs_setPc (p : PcWord) : (s.setPc p).regs = s.regs := rfl
@[simp] theorem State.pc_setPc (p : PcWord) : (s.setPc p).pc = p := rfl
@[simp] theorem State.fl_setPc (p : PcWord) : (s.setPc p).fl = s.fl := rfl
@[simp] theorem State.status_setPc (p : PcWord) : (s.setPc p).status = s.status := rfl
@[simp] theorem State.fault_setPc (p : PcWord) : (s.setPc p).fault = s.fault := rfl
@[simp] theorem State.mem_setPc (p : PcWord) : (s.setPc p).mem = s.mem := rfl
@[simp] theorem State.trace_setPc (p : PcWord) : (s.setPc p).trace = s.trace := rfl

@[simp] theorem State.regs_setFl (v : Byte) : (s.setFl v).regs = s.regs := rfl
@[simp] theorem State.pc_setFl (v : Byte) : (s.setFl v).pc = s.pc := rfl
@[simp] theorem State.fl_setFl (v : Byte) : (s.setFl v).fl = v := rfl
@[simp] theorem State.status_setFl (v : Byte) : (s.setFl v).status = s.status := rfl
@[simp] theorem State.fault_setFl (v : Byte) : (s.setFl v).fault = s.fault := rfl
@[simp] theorem State.mem_setFl (v : Byte) : (s.setFl v).mem = s.mem := rfl
@[simp] theorem State.trace_setFl (v : Byte) : (s.setFl v).trace = s.trace := rfl

@[simp] theorem State.regs_setStatus (v : Status) : (s.setStatus v).regs = s.regs := rfl
@[simp] theorem State.pc_setStatus (v : Status) : (s.setStatus v).pc = s.pc := rfl
@[simp] theorem State.fl_setStatus (v : Status) : (s.setStatus v).fl = s.fl := rfl
@[simp] theorem State.status_setStatus (v : Status) : (s.setStatus v).status = v := rfl
@[simp] theorem State.fault_setStatus (v : Status) : (s.setStatus v).fault = s.fault := rfl
@[simp] theorem State.mem_setStatus (v : Status) : (s.setStatus v).mem = s.mem := rfl
@[simp] theorem State.trace_setStatus (v : Status) : (s.setStatus v).trace = s.trace := rfl

@[simp] theorem State.regs_raiseFault (c : FaultCause) : (raiseFault c s).regs = s.regs := rfl
@[simp] theorem State.pc_raiseFault (c : FaultCause) : (raiseFault c s).pc = s.pc := rfl
@[simp] theorem State.fl_raiseFault (c : FaultCause) : (raiseFault c s).fl = s.fl := rfl
@[simp] theorem State.status_raiseFault (c : FaultCause) : (raiseFault c s).status = .faulted := rfl
@[simp] theorem State.fault_raiseFault (c : FaultCause) : (raiseFault c s).fault = some ⟨c, s.pc⟩ := rfl
@[simp] theorem State.mem_raiseFault (c : FaultCause) : (raiseFault c s).mem = s.mem := rfl
@[simp] theorem State.trace_raiseFault (c : FaultCause) : (raiseFault c s).trace = s.trace := rfl

@[simp] theorem State.regs_emit (k : EventKind) (v : Byte) : (emit k v s).regs = s.regs := rfl
@[simp] theorem State.pc_emit (k : EventKind) (v : Byte) : (emit k v s).pc = s.pc := rfl
@[simp] theorem State.fl_emit (k : EventKind) (v : Byte) : (emit k v s).fl = s.fl := rfl
@[simp] theorem State.status_emit (k : EventKind) (v : Byte) : (emit k v s).status = s.status := rfl
@[simp] theorem State.fault_emit (k : EventKind) (v : Byte) : (emit k v s).fault = s.fault := rfl
@[simp] theorem State.mem_emit (k : EventKind) (v : Byte) : (emit k v s).mem = s.mem := rfl
@[simp] theorem State.trace_emit (k : EventKind) (v : Byte) : (emit k v s).trace = s.trace ++ [⟨k, v⟩] := rfl

@[simp] theorem State.regs_setSp (v : Byte) : (s.setSp v).regs = s.regs.set 7 v := rfl
@[simp] theorem State.pc_setSp (v : Byte) : (s.setSp v).pc = s.pc := rfl
@[simp] theorem State.fl_setSp (v : Byte) : (s.setSp v).fl = s.fl := rfl
@[simp] theorem State.status_setSp (v : Byte) : (s.setSp v).status = s.status := rfl
@[simp] theorem State.fault_setSp (v : Byte) : (s.setSp v).fault = s.fault := rfl
@[simp] theorem State.mem_setSp (v : Byte) : (s.setSp v).mem = s.mem := rfl
@[simp] theorem State.trace_setSp (v : Byte) : (s.setSp v).trace = s.trace := rfl

@[simp] theorem State.regs_decSp : (decSp s).regs = s.regs.set 7 (s.regs[7] - 1) := rfl
@[simp] theorem State.pc_decSp : (decSp s).pc = s.pc := rfl
@[simp] theorem State.fl_decSp : (decSp s).fl = s.fl := rfl
@[simp] theorem State.status_decSp : (decSp s).status = s.status := rfl
@[simp] theorem State.fault_decSp : (decSp s).fault = s.fault := rfl
@[simp] theorem State.mem_decSp : (decSp s).mem = s.mem := rfl
@[simp] theorem State.trace_decSp : (decSp s).trace = s.trace := rfl

@[simp] theorem State.regs_incSp : (incSp s).regs = s.regs.set 7 (s.regs[7] + 1) := rfl
@[simp] theorem State.pc_incSp : (incSp s).pc = s.pc := rfl
@[simp] theorem State.fl_incSp : (incSp s).fl = s.fl := rfl
@[simp] theorem State.status_incSp : (incSp s).status = s.status := rfl
@[simp] theorem State.fault_incSp : (incSp s).fault = s.fault := rfl
@[simp] theorem State.mem_incSp : (incSp s).mem = s.mem := rfl
@[simp] theorem State.trace_incSp : (incSp s).trace = s.trace := rfl

theorem State.reg_eq (i : RegIndex) : s.reg i = s.regs[i.val] := rfl

theorem State.sp_eq : s.sp = s.regs[7] := rfl

theorem State.reg_setReg_self (i : RegIndex) (v : Byte) : (s.setReg i v).reg i = v := by
  simp [State.reg]

theorem State.reg_setReg_ne (i j : RegIndex) (v : Byte) (h : i ≠ j) : (s.setReg i v).reg j = s.reg j := by
  have h' : i.val ≠ j.val := fun e => h (Fin.ext e)
  simp [State.reg, Vector.getElem_set_ne, h']

end Sys2Proof.Machine
end

