-- ==== Sys2Proof/Laws/Ops.lean ====
section
/-! SUPPORT. One lemma per shared operation: what it answers, or everything it can do. Callers cite these and do not unfold
the operation. -/

namespace Sys2Proof.Machine

/-! ## Checked memory access -/

theorem memRead_ok {addr : Nat} (s : State) (h : addr < 256) : memRead addr s = .ok (s.mem.get addr) := by
  simp [memRead, h]

theorem memRead_error {addr : Nat} (s : State) (h : 256 ≤ addr) :
    memRead addr s = .error (.outOfRangeAccess .mem addr) := by
  simp [memRead, Nat.not_lt.mpr h]

theorem memWrite_ok {addr : Nat} (v : Byte) (s : State) (h : addr < 256) :
    memWrite addr v s = .ok { s with mem := s.mem.put addr v } := by
  simp [memWrite, h]

theorem memWrite_error {addr : Nat} (v : Byte) (s : State) (h : 256 ≤ addr) :
    memWrite addr v s = .error (.outOfRangeAccess .mem addr) := by
  simp [memWrite, Nat.not_lt.mpr h]

/-- A byte is always an address of the memory. -/
theorem memRead_byte (addr : Byte) (s : State) : memRead addr.toNat s = .ok (s.mem.get addr.toNat) :=
  memRead_ok s addr.isLt

theorem memWrite_byte (addr v : Byte) (s : State) :
    memWrite addr.toNat v s = .ok { s with mem := s.mem.put addr.toNat v } :=
  memWrite_ok v s addr.isLt

/-! ## Stack -/

/-- A push never faults: it decrements `sp` and stores at the new `sp`. -/
theorem push_eq (v : Byte) (s : State) :
    push v s = .ok { decSp s with mem := s.mem.put (s.sp - 1).toNat v } := by
  have h : (decSp s).sp = s.sp - 1 := State.reg_setReg_self ..
  rw [push, h, memWrite_byte]
  rfl

/-- A pop never faults: it reads at `sp` and increments it. -/
theorem pop_eq (s : State) : pop s = .ok (s.mem.get s.sp.toNat, incSp s) := by
  simp [pop, memRead_byte, bind, Except.bind, pure, Except.pure]

theorem popReg_eq (i : RegIndex) (s : State) :
    popReg i s = .ok ((incSp s).setReg i (s.mem.get s.sp.toNat)) := by
  simp [popReg, pop_eq, bind, Except.bind, pure, Except.pure]

/-! ## Fetch -/

/-- A fetch below address 254 reads three bytes. -/
theorem fetch_ok (s : State) (h : s.pc.toNat ≤ 253) :
    fetch s = .ok ⟨s.mem.get s.pc.toNat, s.mem.get (s.pc.toNat + 1), s.mem.get (s.pc.toNat + 2)⟩ := by
  simp [fetch, memRead_ok s (show s.pc.toNat < 256 by omega), memRead_ok s (show s.pc.toNat + 1 < 256 by omega),
    memRead_ok s (show s.pc.toNat + 2 < 256 by omega), bind, Except.bind, pure, Except.pure]

/-- A fetch from 254 on faults with the first address outside the memory. -/
theorem fetch_error (s : State) (h : 254 ≤ s.pc.toNat) :
    fetch s = .error (.outOfRangeAccess .mem (max 256 s.pc.toNat)) := by
  by_cases h0 : 256 ≤ s.pc.toNat
  · simp [fetch, memRead_error s h0, bind, Except.bind, Nat.max_eq_right h0]
  · rw [Nat.max_eq_left (by omega)]
    by_cases h1 : s.pc.toNat = 255
    · simp [fetch, memRead, h1, bind, Except.bind]
    · have h2 : s.pc.toNat = 254 := by omega
      simp [fetch, memRead, h2, bind, Except.bind]

/-! ## Advance and retire -/

theorem advance_setsPc (i : Instr) (s : State) (h : setsPc (opcodeOf i) = true) : advance i s = s := by
  simp [advance, h]

theorem advance_default (i : Instr) (s : State) (h : setsPc (opcodeOf i) = false) :
    advance i s = s.setPc (s.pc + BitVec.ofNat 9 (instructionLength (opcodeOf i))) := by
  simp [advance, h]

/-- The advance writes nothing but `pc`. -/
theorem advance_eq (i : Instr) (s : State) :
    advance i s =
      { s with pc := if setsPc (opcodeOf i) then s.pc
        else s.pc + BitVec.ofNat 9 (instructionLength (opcodeOf i)) } := by
  unfold advance
  split <;> rfl

@[simp] theorem advance_regs (i : Instr) (s : State) : (advance i s).regs = s.regs := by rw [advance_eq]
@[simp] theorem advance_fl (i : Instr) (s : State) : (advance i s).fl = s.fl := by rw [advance_eq]
@[simp] theorem advance_status (i : Instr) (s : State) : (advance i s).status = s.status := by rw [advance_eq]
@[simp] theorem advance_fault (i : Instr) (s : State) : (advance i s).fault = s.fault := by rw [advance_eq]
@[simp] theorem advance_mem (i : Instr) (s : State) : (advance i s).mem = s.mem := by rw [advance_eq]
@[simp] theorem advance_trace (i : Instr) (s : State) : (advance i s).trace = s.trace := by rw [advance_eq]

/-- Everything the end of a cycle can be: the handler's state, advanced, or fault entry on the state before it. -/
theorem retire_cases {i : Instr} {s t : State} {r : Except FaultCause State} (h : retire i s r = .next t) :
    (∃ u, r = .ok u ∧ t = advance i u) ∨ ∃ c, r = .error c ∧ t = raiseFault c s := by
  cases r with
  | ok u => exact .inl ⟨u, rfl, (Host.Outcome.next.inj h).symm⟩
  | error c => exact .inr ⟨c, rfl, (Host.Outcome.next.inj h).symm⟩

/-- The end of a cycle is always a next state. -/
theorem retire_next (i : Instr) (s : State) (r : Except FaultCause State) : ∃ t, retire i s r = .next t := by
  cases r with
  | ok u => exact ⟨_, rfl⟩
  | error c => exact ⟨_, rfl⟩

/-! ## Register operands -/

theorem regOperand_ok {b : Byte} (h : b.toNat < 8) : regOperand b = .ok ⟨b.toNat, h⟩ := by
  simp [regOperand, h]

theorem regOperand_error {b : Byte} (h : 8 ≤ b.toNat) : regOperand b = .error (.outOfRangeAccess .reg b.toNat) := by
  simp [regOperand, Nat.not_lt.mpr h]

theorem onReg_ok (i : Instr) {a : Byte} (s : State) (handler : RegIndex → Except FaultCause State) (ha : a.toNat < 8) :
    onReg i a s handler = retire i s (handler ⟨a.toNat, ha⟩) := by
  simp [onReg, regOperand_ok ha, bind, Except.bind]

theorem onReg_error (i : Instr) {a : Byte} (s : State) (handler : RegIndex → Except FaultCause State)
    (ha : 8 ≤ a.toNat) : onReg i a s handler = takeFault (.outOfRangeAccess .reg a.toNat) s := by
  simp [onReg, regOperand_error ha, bind, Except.bind, retire]

theorem onRegs_ok (i : Instr) {a b : Byte} (s : State) (handler : RegIndex → RegIndex → Except FaultCause State)
    (ha : a.toNat < 8) (hb : b.toNat < 8) :
    onRegs i a b s handler = retire i s (handler ⟨a.toNat, ha⟩ ⟨b.toNat, hb⟩) := by
  simp [onRegs, regOperand_ok ha, regOperand_ok hb, bind, Except.bind]

theorem onRegs_error_a (i : Instr) {a : Byte} (b : Byte) (s : State)
    (handler : RegIndex → RegIndex → Except FaultCause State) (ha : 8 ≤ a.toNat) :
    onRegs i a b s handler = takeFault (.outOfRangeAccess .reg a.toNat) s := by
  simp [onRegs, regOperand_error ha, bind, Except.bind, retire]

theorem onRegs_error_b (i : Instr) {a b : Byte} (s : State)
    (handler : RegIndex → RegIndex → Except FaultCause State) (ha : a.toNat < 8) (hb : 8 ≤ b.toNat) :
    onRegs i a b s handler = takeFault (.outOfRangeAccess .reg b.toNat) s := by
  simp [onRegs, regOperand_ok ha, regOperand_error hb, bind, Except.bind, retire]

/-- Everything an instruction with one register operand can do. -/
theorem onReg_cases {i : Instr} {a : Byte} {s t : State} {handler : RegIndex → Except FaultCause State}
    (h : onReg i a s handler = .next t) :
    (∃ ha : a.toNat < 8, retire i s (handler ⟨a.toNat, ha⟩) = .next t) ∨
      (8 ≤ a.toNat ∧ t = raiseFault (.outOfRangeAccess .reg a.toNat) s) := by
  by_cases ha : a.toNat < 8
  · exact .inl ⟨ha, onReg_ok i s handler ha ▸ h⟩
  · rw [onReg_error i s handler (by omega)] at h
    exact .inr ⟨by omega, (Host.Outcome.next.inj h).symm⟩

/-- Everything an instruction with two register operands can do. -/
theorem onRegs_cases {i : Instr} {a b : Byte} {s t : State} {handler : RegIndex → RegIndex → Except FaultCause State}
    (h : onRegs i a b s handler = .next t) :
    (∃ (ha : a.toNat < 8) (hb : b.toNat < 8), retire i s (handler ⟨a.toNat, ha⟩ ⟨b.toNat, hb⟩) = .next t) ∨
      ∃ c : Byte, 8 ≤ c.toNat ∧ t = raiseFault (.outOfRangeAccess .reg c.toNat) s := by
  by_cases ha : a.toNat < 8
  · by_cases hb : b.toNat < 8
    · exact .inl ⟨ha, hb, onRegs_ok i s handler ha hb ▸ h⟩
    · rw [onRegs_error_b i s handler ha (by omega)] at h
      exact .inr ⟨b, by omega, (Host.Outcome.next.inj h).symm⟩
  · rw [onRegs_error_a i b s handler (by omega)] at h
    exact .inr ⟨a, by omega, (Host.Outcome.next.inj h).symm⟩

end Sys2Proof.Machine
end

