-- ==== Sys2Proof/Laws/Control.lean ====
section
/-! SUPPORT. IRET as a chain of pops, so that a proof about it goes pop by pop and never unfolds nine of them at once. -/

namespace Sys2Proof.Machine

/-- Nine pops in the order of 42_control.md R100, each from the state the one before left: the states in between, and the
popped flags and destination. -/
structure IretPops (s s6 s5 s4 s3 s2 s1 s0 sFlags sDest : State) (flags dest : Byte) : Prop where
  pop6 : popReg 6 s = .ok s6
  pop5 : popReg 5 s6 = .ok s5
  pop4 : popReg 4 s5 = .ok s4
  pop3 : popReg 3 s4 = .ok s3
  pop2 : popReg 2 s3 = .ok s2
  pop1 : popReg 1 s2 = .ok s1
  pop0 : popReg 0 s1 = .ok s0
  popFlags : pop s0 = .ok (flags, sFlags)
  popDest : pop sFlags = .ok (dest, sDest)

/-- What IRET answers, given its pops. -/
theorem execIret_of_pops {s s6 s5 s4 s3 s2 s1 s0 sFlags sDest : State} {flags dest : Byte}
    (h : IretPops s s6 s5 s4 s3 s2 s1 s0 sFlags sDest flags dest) :
    execIret s = .next ((sDest.setFl flags).setPc (target dest)) := by
  obtain ⟨h6, h5, h4, h3, h2, h1, h0, hf, hd⟩ := h
  simp only [execIret, h6, h5, h4, h3, h2, h1, h0, hf, hd, onNone, retire, bind, Except.bind, pure, Except.pure]
  exact congrArg Host.Outcome.next (advance_setsPc _ _ rfl)

/-- No pop faults, so IRET's pops always exist. -/
theorem iretPops_exist (s : State) : ∃ s6 s5 s4 s3 s2 s1 s0 sFlags sDest flags dest,
    IretPops s s6 s5 s4 s3 s2 s1 s0 sFlags sDest flags dest :=
  ⟨_, _, _, _, _, _, _, _, _, _, _, popReg_eq .., popReg_eq .., popReg_eq .., popReg_eq .., popReg_eq .., popReg_eq ..,
    popReg_eq .., pop_eq .., pop_eq ..⟩

end Sys2Proof.Machine
end

