-- ==== Sys2Proof/Laws/PerInstr.lean ====
section
/-! SUPPORT. The family EncodedLength, one lemma per constructor: the encoding of an instruction has the length that the
opcode's bits 7:6 give (30_encoding.md R50). -/

namespace Sys2Proof.Laws.EncodedLength

/-- The number of bytes of the encoding is `operand_count + 1`, at most 3 (30_encoding.md R50). -/
def Statement (i : Instr) : Prop := (encode i).length = instructionLength (opcodeOf i) ∧ (encode i).length ≤ 3

theorem nop : Statement .nop := by
  simp [Statement, encode, operandBytes, opcodeOf, instructionLength, operandCount]
theorem hlt : Statement .hlt := by
  simp [Statement, encode, operandBytes, opcodeOf, instructionLength, operandCount]
theorem ret : Statement .ret := by
  simp [Statement, encode, operandBytes, opcodeOf, instructionLength, operandCount]
theorem iret : Statement .iret := by
  simp [Statement, encode, operandBytes, opcodeOf, instructionLength, operandCount]
theorem push (a : Byte) : Statement (.push a) := by
  simp [Statement, encode, operandBytes, opcodeOf, instructionLength, operandCount]
theorem pop (a : Byte) : Statement (.pop a) := by
  simp [Statement, encode, operandBytes, opcodeOf, instructionLength, operandCount]
theorem prn (a : Byte) : Statement (.prn a) := by
  simp [Statement, encode, operandBytes, opcodeOf, instructionLength, operandCount]
theorem pra (a : Byte) : Statement (.pra a) := by
  simp [Statement, encode, operandBytes, opcodeOf, instructionLength, operandCount]
theorem call (a : Byte) : Statement (.call a) := by
  simp [Statement, encode, operandBytes, opcodeOf, instructionLength, operandCount]
theorem jmp (a : Byte) : Statement (.jmp a) := by
  simp [Statement, encode, operandBytes, opcodeOf, instructionLength, operandCount]
theorem jeq (a : Byte) : Statement (.jeq a) := by
  simp [Statement, encode, operandBytes, opcodeOf, instructionLength, operandCount]
theorem jne (a : Byte) : Statement (.jne a) := by
  simp [Statement, encode, operandBytes, opcodeOf, instructionLength, operandCount]
theorem jgt (a : Byte) : Statement (.jgt a) := by
  simp [Statement, encode, operandBytes, opcodeOf, instructionLength, operandCount]
theorem jlt (a : Byte) : Statement (.jlt a) := by
  simp [Statement, encode, operandBytes, opcodeOf, instructionLength, operandCount]
theorem jle (a : Byte) : Statement (.jle a) := by
  simp [Statement, encode, operandBytes, opcodeOf, instructionLength, operandCount]
theorem jge (a : Byte) : Statement (.jge a) := by
  simp [Statement, encode, operandBytes, opcodeOf, instructionLength, operandCount]
theorem inc (a : Byte) : Statement (.inc a) := by
  simp [Statement, encode, operandBytes, opcodeOf, instructionLength, operandCount]
theorem dec (a : Byte) : Statement (.dec a) := by
  simp [Statement, encode, operandBytes, opcodeOf, instructionLength, operandCount]
theorem not (a : Byte) : Statement (.not a) := by
  simp [Statement, encode, operandBytes, opcodeOf, instructionLength, operandCount]
theorem ldi (a imm : Byte) : Statement (.ldi a imm) := by
  simp [Statement, encode, operandBytes, opcodeOf, instructionLength, operandCount]
theorem ld (a b : Byte) : Statement (.ld a b) := by
  simp [Statement, encode, operandBytes, opcodeOf, instructionLength, operandCount]
theorem st (a b : Byte) : Statement (.st a b) := by
  simp [Statement, encode, operandBytes, opcodeOf, instructionLength, operandCount]
theorem add (a b : Byte) : Statement (.add a b) := by
  simp [Statement, encode, operandBytes, opcodeOf, instructionLength, operandCount]
theorem sub (a b : Byte) : Statement (.sub a b) := by
  simp [Statement, encode, operandBytes, opcodeOf, instructionLength, operandCount]
theorem mul (a b : Byte) : Statement (.mul a b) := by
  simp [Statement, encode, operandBytes, opcodeOf, instructionLength, operandCount]
theorem div (a b : Byte) : Statement (.div a b) := by
  simp [Statement, encode, operandBytes, opcodeOf, instructionLength, operandCount]
theorem mod (a b : Byte) : Statement (.mod a b) := by
  simp [Statement, encode, operandBytes, opcodeOf, instructionLength, operandCount]
theorem cmp (a b : Byte) : Statement (.cmp a b) := by
  simp [Statement, encode, operandBytes, opcodeOf, instructionLength, operandCount]
theorem and (a b : Byte) : Statement (.and a b) := by
  simp [Statement, encode, operandBytes, opcodeOf, instructionLength, operandCount]
theorem or (a b : Byte) : Statement (.or a b) := by
  simp [Statement, encode, operandBytes, opcodeOf, instructionLength, operandCount]
theorem xor (a b : Byte) : Statement (.xor a b) := by
  simp [Statement, encode, operandBytes, opcodeOf, instructionLength, operandCount]
theorem shl (a b : Byte) : Statement (.shl a b) := by
  simp [Statement, encode, operandBytes, opcodeOf, instructionLength, operandCount]
theorem shr (a b : Byte) : Statement (.shr a b) := by
  simp [Statement, encode, operandBytes, opcodeOf, instructionLength, operandCount]
theorem addi (a imm : Byte) : Statement (.addi a imm) := by
  simp [Statement, encode, operandBytes, opcodeOf, instructionLength, operandCount]

end Sys2Proof.Laws.EncodedLength
end

