-- ==== Sys2Proof/Laws/Step.lean ====
section
/-! SUPPORT. What a fetch and a step can do, said once. -/

namespace Sys2Proof.Machine

/-- Where three bytes can be fetched and decode, that is the instruction dispatched. -/
theorem fetchDecode_ok {s : State} {i : Instr} (hpc : s.pc.toNat ≤ 253)
    (hi : decode (s.mem.get s.pc.toNat) (s.mem.get (s.pc.toNat + 1)) (s.mem.get (s.pc.toNat + 2)) = .ok i) :
    fetchDecode s = .ok i := by
  simp [fetchDecode, fetch_ok s hpc, hi, bind, Except.bind]

/-- Where they do not decode, the cycle ends in the fault of the rejection. -/
theorem fetchDecode_reject {s : State} {r : DecodeReject} (hpc : s.pc.toNat ≤ 253)
    (hr : decode (s.mem.get s.pc.toNat) (s.mem.get (s.pc.toNat + 1)) (s.mem.get (s.pc.toNat + 2)) = .error r) :
    fetchDecode s = .error (decodeFault r) := by
  simp [fetchDecode, fetch_ok s hpc, hr, bind, Except.bind]

/-- Where the fetch leaves the memory, the cycle ends in its fault. -/
theorem fetchDecode_outside {s : State} (hpc : 254 ≤ s.pc.toNat) :
    fetchDecode s = .error (.outOfRangeAccess .mem (max 256 s.pc.toNat)) := by
  simp [fetchDecode, fetch_error s hpc, bind, Except.bind]

/-- An instruction is dispatched only where its three bytes can be fetched and decode to it. -/
theorem fetchDecode_inv {s : State} {i : Instr} (h : fetchDecode s = .ok i) :
    s.pc.toNat ≤ 253 ∧
      decode (s.mem.get s.pc.toNat) (s.mem.get (s.pc.toNat + 1)) (s.mem.get (s.pc.toNat + 2)) = .ok i := by
  by_cases hpc : s.pc.toNat ≤ 253
  · refine ⟨hpc, ?_⟩
    cases hd : decode (s.mem.get s.pc.toNat) (s.mem.get (s.pc.toNat + 1)) (s.mem.get (s.pc.toNat + 2)) with
    | ok j => exact congrArg Except.ok (Except.ok.inj ((fetchDecode_ok hpc hd).symm.trans h))
    | error r => cases (fetchDecode_reject hpc hd).symm.trans h
  · cases (fetchDecode_outside (by omega)).symm.trans h

/-- A decoder rejects three bytes only because the opcode has no handler. -/
theorem decode_error {opcode operandA operandB : Byte} {r : DecodeReject}
    (h : decode opcode operandA operandB = .error r) : r = .noHandler opcode ∧ lookupOpcode opcode = none := by
  unfold decode at h
  split at h
  · cases h
  · exact ⟨(Except.error.inj h).symm, ‹_›⟩

theorem step_stopped {s : State} (h : s.status ≠ .running) : step s = .next s := by
  unfold step
  cases hs : s.status with
  | running => exact absurd hs h
  | halted => rfl
  | faulted => rfl

theorem step_dispatch {s : State} {i : Instr} (h : s.status = .running) (hi : fetchDecode s = .ok i) :
    step s = exec i s := by
  simp [step, h, hi]

theorem step_fault {s : State} {c : FaultCause} (h : s.status = .running) (hc : fetchDecode s = .error c) :
    step s = takeFault c s := by
  simp [step, h, hc]

/-- Everything a step can be: nothing in an end state; a fault before dispatch; or the dispatched instruction. -/
theorem step_cases {s t : State} (h : step s = .next t) :
    (s.status ≠ .running ∧ t = s) ∨
    (s.status = .running ∧ ∃ c, fetchDecode s = .error c ∧ t = raiseFault c s) ∨
    (s.status = .running ∧ ∃ i, fetchDecode s = .ok i ∧ exec i s = .next t) := by
  by_cases hs : s.status = .running
  · cases hf : fetchDecode s with
    | ok i => exact .inr (.inr ⟨hs, i, rfl, (step_dispatch hs hf).symm.trans h⟩)
    | error c => exact .inr (.inl ⟨hs, c, rfl, Host.Outcome.next.inj (h.symm.trans (step_fault hs hf))⟩)
  · exact .inl ⟨hs, Host.Outcome.next.inj (h.symm.trans (step_stopped hs))⟩

end Sys2Proof.Machine
end

