-- ==== Sys2Proof/Tests/Slice0.lean ====
section
/-! SUPPORT. The model's own tests: the ill-formed terms WellFormed refuses, each constructor's word written out from the
"Encoding" line of its rule, one or two single steps per instruction with the expected values of spec/95_test_vectors.md
(the vector's id stands beside each) or of an "Example" line, and for each statement with hypotheses a witness that meets
them. -/

namespace Sys2Proof.Tests

open Sys2Proof.Machine Sys2Proof.Safety

/-! ## Small states -/

/-- Reset, but for the registers, the program counter, the flags, the cells given, and `bytes` placed at `pc`. -/
def start (pc : PcWord) (bytes : List Byte) (regs : List (RegIndex × Byte) := []) (cells : List Host.Cell := [])
    (fl : Byte := 0) : State :=
  let s := regs.foldl (fun s r => s.setReg r.1 r.2) { State.reset with pc := pc, fl := fl }
  let mem := cells.foldl (fun m c => Memory.put m c.1 c.2) []
  { s with mem := Memory.putBytes mem pc.toNat bytes }

/-- One step answers a next state with the property. -/
def leads (s : State) (p : State → Bool) : Bool :=
  match step s with
  | .next t => p t
  | .fault _ => false
  | .refused _ => false

/-- One step takes the fault entry with this record, and changes nothing else. -/
def faults (s : State) (cause : FaultCause) (faultPc : PcWord) : Bool :=
  leads s fun t => decide (t = { s with status := .faulted, fault := some ⟨cause, faultPc⟩ })

/-! ## WellFormed refuses -/

theorem test_wf_refuses_one_register : (Instr.push 8).wf = false := by decide
theorem test_wf_refuses_first_register : (Instr.add 8 0).wf = false := by decide
theorem test_wf_refuses_second_register : (Instr.add 0 255).wf = false := by decide
theorem test_wf_refuses_register_before_immediate : (Instr.ldi 9 0).wf = false := by decide
theorem test_wf_takes_any_immediate : (Instr.addi 7 255).wf = true := by decide

/-! ## Words written out from the "Encoding" lines (40 to 44), bit by bit -/

theorem test_decode_nop : decode 0b00000000 0xFF 0xFF = .ok .nop := by rfl
theorem test_decode_hlt : decode 0b00000001 0xFF 0xFF = .ok .hlt := by rfl
theorem test_decode_ret : decode 0b00010001 0xFF 0xFF = .ok .ret := by rfl
theorem test_decode_iret : decode 0b00010011 0xFF 0xFF = .ok .iret := by rfl
theorem test_decode_push : decode 0b01000101 0b00000111 0xFF = .ok (.push 7) := by rfl
theorem test_decode_pop : decode 0b01000110 0b00000001 0xFF = .ok (.pop 1) := by rfl
theorem test_decode_prn : decode 0b01000111 0b00000000 0xFF = .ok (.prn 0) := by rfl
theorem test_decode_pra : decode 0b01001000 0b00000000 0xFF = .ok (.pra 0) := by rfl
theorem test_decode_call : decode 0b01010000 0b00000000 0xFF = .ok (.call 0) := by rfl
theorem test_decode_jmp : decode 0b01010100 0b00000010 0xFF = .ok (.jmp 2) := by rfl
theorem test_decode_jeq : decode 0b01010101 0b00000010 0xFF = .ok (.jeq 2) := by rfl
theorem test_decode_jne : decode 0b01010110 0b00000010 0xFF = .ok (.jne 2) := by rfl
theorem test_decode_jgt : decode 0b01010111 0b00000010 0xFF = .ok (.jgt 2) := by rfl
theorem test_decode_jlt : decode 0b01011000 0b00000010 0xFF = .ok (.jlt 2) := by rfl
theorem test_decode_jle : decode 0b01011001 0b00000010 0xFF = .ok (.jle 2) := by rfl
theorem test_decode_jge : decode 0b01011010 0b00000010 0xFF = .ok (.jge 2) := by rfl
theorem test_decode_inc : decode 0b01100101 0b00000000 0xFF = .ok (.inc 0) := by rfl
theorem test_decode_dec : decode 0b01100110 0b00000001 0xFF = .ok (.dec 1) := by rfl
theorem test_decode_not : decode 0b01101001 0b00000000 0xFF = .ok (.not 0) := by rfl
theorem test_decode_ldi : decode 0b10000010 0b00000011 0b11111111 = .ok (.ldi 3 255) := by rfl
theorem test_decode_ld : decode 0b10000011 0b00000011 0b00000010 = .ok (.ld 3 2) := by rfl
theorem test_decode_st : decode 0b10000100 0b00000010 0b00000001 = .ok (.st 2 1) := by rfl
theorem test_decode_add : decode 0b10100000 0b00000000 0b00000001 = .ok (.add 0 1) := by rfl
theorem test_decode_sub : decode 0b10100001 0b00000000 0b00000001 = .ok (.sub 0 1) := by rfl
theorem test_decode_mul : decode 0b10100010 0b00000001 0b00000000 = .ok (.mul 1 0) := by rfl
theorem test_decode_div : decode 0b10100011 0b00000000 0b00000001 = .ok (.div 0 1) := by rfl
theorem test_decode_mod : decode 0b10100100 0b00000000 0b00000001 = .ok (.mod 0 1) := by rfl
theorem test_decode_cmp : decode 0b10100111 0b00000001 0b00000010 = .ok (.cmp 1 2) := by rfl
theorem test_decode_and : decode 0b10101000 0b00000000 0b00000001 = .ok (.and 0 1) := by rfl
theorem test_decode_or : decode 0b10101010 0b00000000 0b00000001 = .ok (.or 0 1) := by rfl
theorem test_decode_xor : decode 0b10101011 0b00000000 0b00000001 = .ok (.xor 0 1) := by rfl
theorem test_decode_shl : decode 0b10101100 0b00000000 0b00000010 = .ok (.shl 0 2) := by rfl
theorem test_decode_shr : decode 0b10101101 0b00000000 0b00000001 = .ok (.shr 0 1) := by rfl
theorem test_decode_addi : decode 0b10101110 0b00000000 0b00001001 = .ok (.addi 0 9) := by rfl

theorem test_decode_keeps_invalid_register : decode 0x82 0x08 0x05 = .ok (.ldi 8 5) := by rfl
theorem test_decode_rejects_int : decode 0x52 0 0 = .error (.noHandler 0x52) := by rfl
theorem test_decode_rejects_top : decode 0xFF 9 9 = .error (.noHandler 0xFF) := by rfl
theorem test_decode_rejects_two_bytes : decodeBytes [0x82, 0] = .error .tooFewBytes := by rfl

/-- 30_encoding.md R59: 34 opcodes, no opcode twice. -/
theorem test_opcodes_distinct : opcodeTable.length = 34 ∧ (opcodeTable.map (·.opcode)).Nodup := by decide

/-- 00_scope.md R4, the condition on OPC_ADDI: bits 7:6 are `10`, bit 4 is 0, and no other opcode has its value. -/
theorem test_addi_opcode_admissible : Config.hardware.opcAddi.extractLsb' 6 2 = 0b10 ∧
    Config.hardware.opcAddi.getLsbD 4 = false ∧
    (opcodeTable.map (·.opcode)).count Config.hardware.opcAddi = 1 := by decide

/-- The bytes of the source's first program (95_test_vectors.md P1). -/
theorem test_encode_program : [Instr.ldi 0 8, .ldi 1 9, .add 0 1, .prn 0, .hlt].flatMap encode =
    [0x82, 0x00, 0x08, 0x82, 0x01, 0x09, 0xA0, 0x00, 0x01, 0x47, 0x00, 0x01] := by decide

/-! ## Data move -/

-- D3
theorem test_ldi_moves_sp : leads (start 0 [0x82, 7, 0x80]) (fun t => t.regs[7] == 0x80 && t.pc == 3) := by decide
-- F7
theorem test_ldi_invalid_register : faults (start 0 [0x82, 8, 5]) (.outOfRangeAccess .reg 8) 0 := by decide
-- D6
theorem test_ld_same_register :
    leads (start 0 [0x83, 1, 1] [(1, 0x80)] [(0x80, 0x2A)]) (fun t => t.regs[1] == 0x2A && t.pc == 3) := by decide
-- D8
theorem test_ld_own_opcode : leads (start 0 [0x83, 0, 1] [(0, 0x77)]) (fun t => t.regs[0] == 0x83) := by decide
-- D9
theorem test_st_address_first :
    leads (start 0 [0x84, 2, 1] [(2, 0x80), (1, 0x15)])
      (fun t => t.mem.get 0x80 == 0x15 && t.mem.get 0x15 == 0 && t.pc == 3) := by decide
-- D12
theorem test_st_top_cell :
    leads (start 0 [0x84, 0, 1] [(0, 0xFF), (1, 0xAB)]) (fun t => t.mem.get 0xFF == 0xAB) := by decide

/-! ## Stack -/

-- S3
theorem test_push_wraps :
    leads (start 0 [0x45, 0] [(0, 0x2A), (7, 0)])
      (fun t => t.regs[7] == 0xFF && t.pc == 2 && t.mem.get 0xFF == 0x2A && t.mem.get 0 == 0x45) := by decide
-- S6
theorem test_push_sp : leads (start 0 [0x45, 7]) (fun t => t.regs[7] == 0xF3 && t.mem.get 0xF3 == 0xF3) := by decide
-- S4
theorem test_pop_wraps :
    leads (start 0 [0x46, 1] [(7, 0xFF)] [(0xFF, 0x5C)])
      (fun t => t.regs[1] == 0x5C && t.regs[7] == 0 && t.pc == 2) := by decide
-- S7
theorem test_pop_sp : leads (start 0 [0x46, 7] [(7, 0xF3)] [(0xF3, 0x40)]) (fun t => t.regs[7] == 0x41) := by decide

/-! ## Control -/

-- C4
theorem test_call_sp :
    leads (start 6 [0x50, 7]) (fun t => t.regs[7] == 0xF3 && t.pc == 0xF3 && t.mem.get 0xF3 == 8) := by decide
-- C5
theorem test_call_highest :
    leads (start 0xFD [0x50, 0] [(0, 0x30)])
      (fun t => t.regs[7] == 0xF3 && t.pc == 0x30 && t.mem.get 0xF3 == 0xFF) := by decide
-- C2
theorem test_ret :
    leads (start 0x1E [0x11] [(7, 0xF3)] [(0xF3, 8)]) (fun t => t.regs[7] == 0xF4 && t.pc == 8) := by decide
-- C7
theorem test_jmp : leads (start 0x10 [0x54, 2] [(2, 0x30)]) (fun t => t.pc == 0x30) := by decide
-- 95_test_vectors.md 2.4, row `0b11111001`
theorem test_jeq_taken : leads (start 0x10 [0x55, 2] [(2, 0x20)] [] 0b11111001) (fun t => t.pc == 0x20) := by decide
-- F12
theorem test_jeq_checks_untaken : faults (start 0x10 [0x55, 0xFF]) (.outOfRangeAccess .reg 255) 0x10 := by decide
-- 95_test_vectors.md 2.4, rows `0b00000000` and `0b00000011`
theorem test_jne_taken : leads (start 0x10 [0x56, 2] [(2, 0x20)] [] 0) (fun t => t.pc == 0x20) := by decide
theorem test_jne_not_taken : leads (start 0x10 [0x56, 2] [(2, 0x20)] [] 0b011) (fun t => t.pc == 0x12) := by decide
-- 95_test_vectors.md 2.4, rows `0b00000010` and `0b00000100`
theorem test_jgt_taken : leads (start 0x10 [0x57, 2] [(2, 0x20)] [] 0b010) (fun t => t.pc == 0x20) := by decide
theorem test_jgt_not_taken : leads (start 0x10 [0x57, 2] [(2, 0x20)] [] 0b100) (fun t => t.pc == 0x12) := by decide
theorem test_jlt_taken : leads (start 0x10 [0x58, 2] [(2, 0x20)] [] 0b100) (fun t => t.pc == 0x20) := by decide
theorem test_jlt_not_taken : leads (start 0x10 [0x58, 2] [(2, 0x20)] [] 0b010) (fun t => t.pc == 0x12) := by decide
-- 95_test_vectors.md 2.4, rows `0b00000010` and `0b00000100`
theorem test_jge_taken : leads (start 0x10 [0x5A, 2] [(2, 0x20)] [] 0b010) (fun t => t.pc == 0x20) := by decide
theorem test_jge_not_taken : leads (start 0x10 [0x5A, 2] [(2, 0x20)] [] 0b100) (fun t => t.pc == 0x12) := by decide
theorem test_jle_taken : leads (start 0x10 [0x59, 2] [(2, 0x20)] [] 0b100) (fun t => t.pc == 0x20) := by decide
theorem test_jle_not_taken : leads (start 0x10 [0x59, 2] [(2, 0x20)] [] 0b010) (fun t => t.pc == 0x12) := by decide
-- C10
theorem test_iret :
    leads (start 0x40 [0x13] [(7, 0xEB)]
        [(0xEB, 6), (0xEC, 5), (0xED, 4), (0xEE, 3), (0xEF, 2), (0xF0, 1), (0xF1, 0), (0xF2, 4), (0xF3, 0x30)])
      (fun t => t.regs == #v[0, 1, 2, 3, 4, 5, 6, 0xF4] && t.pc == 0x30 && t.fl == 4) := by decide
-- C12
theorem test_iret_wraps :
    leads (start 0x40 [0x13] [(7, 0xFB)]
        [(0xFB, 0x10), (0xFC, 0x11), (0xFD, 0x12), (0xFE, 0x13), (0xFF, 0x14), (0, 0x15), (1, 0x16), (2, 0xE7), (3, 0x50)])
      (fun t => t.regs == #v[0x16, 0x15, 0x14, 0x13, 0x12, 0x11, 0x10, 4] && t.pc == 0x50 && t.fl == 0xE7) := by decide
-- C14
theorem test_hlt :
    leads (start 0x18 [1, 0xFF, 0xFF]) (fun t => t.pc == 0x18 && decide (t.status = .halted)) := by decide
-- F17
theorem test_hlt_at_254 : faults (start 0xFE [1]) (.outOfRangeAccess .mem 256) 0xFE := by decide
-- C15
theorem test_nop : leads (start 0x40 [0]) (fun t => decide (t = { start 0x40 [0] with pc := 0x41 })) := by decide
-- C16
theorem test_nop_at_253 : leads (start 0xFD [0]) (fun t => t.pc == 0xFE) := by decide

/-! ## ALU -/

-- A64
theorem test_add_wraps :
    leads (start 0 [0xA0, 0, 1] [(0, 0xFF), (1, 1)] [] 4) (fun t => t.regs[0] == 0 && t.pc == 3 && t.fl == 4) := by decide
-- F9
theorem test_add_reports_first : faults (start 0 [0xA0, 9, 0xA]) (.outOfRangeAccess .reg 9) 0 := by decide
-- A6
theorem test_sub_borrows : leads (start 0 [0xA1, 0, 1] [(0, 5), (1, 0xA)]) (fun t => t.regs[0] == 0xFB) := by decide
-- A11
theorem test_mul_low_byte : leads (start 0 [0xA2, 0, 1] [(0, 0xFF), (1, 0xFF)]) (fun t => t.regs[0] == 1) := by decide
-- A15
theorem test_div_unsigned : leads (start 0 [0xA3, 0, 1] [(0, 0xFF), (1, 2)]) (fun t => t.regs[0] == 0x7F) := by decide
-- A20
theorem test_div_by_zero : faults (start 0 [0xA3, 0, 1] [(0, 0xA)]) (.arithmeticError 0xA3) 0 := by decide
-- A22
theorem test_mod : leads (start 0 [0xA4, 0, 1] [(0, 0x9F), (1, 0x64)]) (fun t => t.regs[0] == 0x3B) := by decide
-- F22
theorem test_mod_by_zero :
    faults (start 0x30 [0xA4, 2, 3] [(2, 9), (3, 0)] [] 1) (.arithmeticError 0xA4) 0x30 := by decide
-- A31
theorem test_addi_immediate_unchecked :
    leads (start 0 [0xAE, 2, 8] [(2, 0xFC)]) (fun t => t.regs[2] == 4 && t.pc == 3) := by decide
-- A33
theorem test_inc_wraps : leads (start 0 [0x65, 0] [(0, 0xFF)]) (fun t => t.regs[0] == 0 && t.pc == 2) := by decide
-- A37
theorem test_dec_wraps : leads (start 0 [0x66, 1]) (fun t => t.regs[1] == 0xFF && t.pc == 2) := by decide
-- A38
theorem test_and : leads (start 0 [0xA8, 0, 1] [(0, 0xCC), (1, 0xAA)]) (fun t => t.regs[0] == 0x88) := by decide
-- A39
theorem test_or : leads (start 0 [0xAA, 0, 1] [(0, 0xCC), (1, 0xAA)]) (fun t => t.regs[0] == 0xEE) := by decide
-- A40
theorem test_xor : leads (start 0 [0xAB, 0, 1] [(0, 0xCC), (1, 0xAA)]) (fun t => t.regs[0] == 0x66) := by decide
-- A43
theorem test_not : leads (start 0 [0x69, 0] [(0, 0x60)]) (fun t => t.regs[0] == 0x9F && t.pc == 2) := by decide
-- A46
theorem test_shl : leads (start 0 [0xAC, 0, 2] [(0, 0x2C), (2, 3)]) (fun t => t.regs[0] == 0x60) := by decide
-- A49
theorem test_shl_by_eight : leads (start 0 [0xAC, 0, 2] [(0, 0xFF), (2, 8)]) (fun t => t.regs[0] == 0) := by decide
-- A54
theorem test_shr_logical : leads (start 0 [0xAD, 0, 1] [(0, 0xFF), (1, 1)]) (fun t => t.regs[0] == 0x7F) := by decide
-- A56
theorem test_shr_by_eight : leads (start 0 [0xAD, 0, 1] [(0, 0x80), (1, 8)]) (fun t => t.regs[0] == 0) := by decide
-- A62
theorem test_cmp_unsigned :
    leads (start 0 [0xA7, 1, 2] [(1, 0x80), (2, 0x7F)]) (fun t => t.fl == 0b010 && t.regs[1] == 0x80) := by decide
-- A63
theorem test_cmp_replaces_flags :
    leads (start 0 [0xA7, 5, 5] [(5, 0x33)] [] 0xFE) (fun t => t.fl == 1 && t.pc == 3) := by decide

/-! ## Output, faults -/

-- I3
theorem test_prn :
    leads (start 0 [0x47, 3] [(3, 0xFF)]) (fun t => decide (t.trace = [⟨.num, 255⟩]) && t.pc == 2) := by decide
-- I4
theorem test_pra : leads (start 0 [0x48, 0] [(0, 0x41)]) (fun t => decide (t.trace = [⟨.chr, 0x41⟩])) := by decide
-- I1 and I3 to I4, the text column
theorem test_text : [Event.mk .num 17, ⟨.num, 255⟩, ⟨.num, 0⟩, ⟨.chr, 0x41⟩].map Event.line =
    [['1', '7'], ['2', '5', '5'], ['0'], ['A']] := by decide
-- F2
theorem test_illegal_opcode : faults (start 0 [0x52, 0]) (.decodeError 0x52) 0 := by decide
-- F20
theorem test_fetch_before_decode : faults (start 0xFE [0xC7]) (.outOfRangeAccess .mem 256) 0xFE := by decide
-- F19
theorem test_fetch_at_256 : faults (start 0x100 []) (.outOfRangeAccess .mem 256) 0x100 := by decide

/-! ## The host's two entry points -/

theorem test_table_word : decodeTableWord 24 0x080082 = some (.ldi 0 8) := by rfl
theorem test_table_word_short : decodeTableWord 8 0x01 = some .hlt := by rfl
theorem test_table_word_illegal : decodeTableWord 8 0xC7 = none := by rfl
-- D1, placed after reset
theorem test_placed_word_runs :
    leads (State.reset.withFetchWord 24 0x080082) (fun t => t.regs[0] == 8 && t.pc == 3) := by decide

/-! ## Witnesses: states and operands that meet the hypotheses of the statements -/

/-- The conditions of the register check at the edges: 7 and 0 name a register, 8 and 255 do not. -/
def EdgeRegisters : Prop :=
  (0 : Byte).toNat < 8 ∧ (7 : Byte).toNat < 8 ∧ 8 ≤ (8 : Byte).toNat ∧ 8 ≤ (255 : Byte).toNat

/-- A completed instruction answers this state. -/
def answers (i : Instr) (s t : State) : Bool :=
  match exec i s with
  | .next u => decide (u = t)
  | .fault _ => false
  | .refused _ => false

theorem witness_LaunchHoldsImage :
    (List.replicate 256 (1 : Byte)).length ≤ 256 ∧ 256 < (List.replicate 257 (1 : Byte)).length := by
  rw [List.length_replicate, List.length_replicate]; decide

/-- A HLT at 253; a fetch at 254; a halted engine. -/
theorem witness_StatusTransitions :
    ((start 0xFD [1]).status = .running ∧ (start 0xFD [1]).pc.toNat ≤ 253 ∧
      (leads (start 0xFD [1]) fun t => decide (t = { start 0xFD [1] with status := .halted })) = true) ∧
    (leads (start 0xFE []) fun t => decide (t.status ≠ .running)) = true ∧
    { start 0 [] with status := Status.halted }.status ≠ .running := by decide

theorem witness_EngineNeverStalls : State.reset.status = .running ∧ (start 0x100 []).status = .running := by decide

/-- A state that no reset leaves: `pc` 253, a listed memory, a step that stores. -/
theorem witness_StepKeepsInvariant :
    Inv (start 0xFD [0x45, 7]) ∧ (leads (start 0xFD [0x45, 7]) fun t => t.mem.get 0xF3 == 0xF3) = true :=
  ⟨⟨by decide, by decide, by decide, fun _ h => by cases h⟩, by decide⟩

theorem witness_LaunchMeetsInvariant : (launch [0x82, 0x00, 0x08]).isSome ∧ (launch []).isSome := by decide

theorem witness_MemoryAccess : 255 ≤ 255 ∧ 255 < 256 ∧ memRead 255 State.reset = .ok 0 ∧
    memRead 256 State.reset = .error (.outOfRangeAccess .mem 256) := by
  refine ⟨by decide, by decide, by rfl, by rfl⟩

theorem witness_MemoryCanonical :
    Memory.wf [(0, 1), (255, 2)] = true ∧ ∀ addr, Memory.get [(0, 1), (255, 2)] addr =
      Memory.get (Memory.put (Memory.put [] 255 2) 0 1) addr := by
  refine ⟨by decide, fun _ => rfl⟩

theorem witness_OnlyStoresChangeMemory :
    (leads (start 0 [0x84, 2, 1] [(2, 0xFF), (1, 3)]) fun t => t.mem.get 0xFF == 3) = true ∧
    storeAddress (.st 2 1) (start 0 [] [(2, 0xFF)]) = some 0xFF ∧
    storeAddress (.push 7) (start 0 [] [(7, 0)]) = some 0xFF ∧ storeAddress .ret (start 0 []) = none ∧
    storeAddress (.st 8 1) (start 0 []) = none := by decide

/-- The last address where three more bytes follow the ST, and a store to each of them and beside them. -/
theorem witness_FetchSeesStore :
    (start 250 [0x84, 0, 1] [(0, 253), (1, 1)]).pc.toNat ≤ 250 ∧
    ([252, 253, 254, 255].all fun a => leads (start 250 [0x84, 0, 1] [(0, a), (1, 1)]) fun t =>
      t.mem.get a.toNat == 1) = true := by decide

theorem witness_EncodeDecodeRoundTrip :
    decode 0xAE 7 255 = .ok (.addi 7 255) ∧ decode 0x01 9 9 = .ok .hlt ∧ decode 0x45 7 9 = .ok (.push 7) :=
  ⟨rfl, rfl, rfl⟩

theorem witness_IllegalOpcodesFault :
    ((start 0xFD [0xC7]).status = .running ∧ (start 0xFD [0xC7]).pc.toNat ≤ 253 ∧ byteAtPc (start 0xFD [0xC7]) 0 = 0xC7) ∧
    3 < 4 ∧ (lookupOpcode 0xA0).isSome ∧
    254 ≤ (start 0xFE []).pc.toNat ∧ (start 0x100 []).pc.toNat ≤ 256 := by decide

theorem witness_StepRunsDecoded :
    (start 0xFD [0x82, 7, 9]).status = .running ∧ (start 0xFD [0x82, 7, 9]).pc.toNat ≤ 253 ∧
    decode ((start 0xFD [0x82, 7, 9]).mem.get 253) ((start 0xFD [0x82, 7, 9]).mem.get 254)
      ((start 0xFD [0x82, 7, 9]).mem.get 255) = .ok (.ldi 7 9) := by
  refine ⟨by decide, by decide, by rfl⟩

theorem witness_FetchReadsThreeBytes :
    (start 0xFD []).pc.toNat ≤ 253 ∧ 254 ≤ (start 0xFE []).pc.toNat ∧ (start 0xFE []).pc.toNat ≤ 256 ∧
    254 ≤ (start 0x100 []).pc.toNat ∧ (start 0x100 []).pc.toNat ≤ 256 := by decide

/-- A fault, a HLT, a default advance to 256, a jump taken and a jump not taken. -/
theorem witness_ProgramCounterChange :
    (leads (start 0xFE []) fun t => decide (t.status = .faulted) && t.pc == 0xFE) = true ∧
    (leads (start 0xFD [1]) fun t => decide (t.status = .halted) && t.pc == 0xFD) = true ∧
    (leads (start 0xFD [0x82, 0, 7]) fun t => decide (t.status = .running) && t.pc == 0x100) = true ∧
    (leads (start 0xFD [0x54, 0] [(0, 0xFF)]) fun t => t.pc == 0xFF) = true ∧
    (leads (start 0xFD [0x55, 0] [(0, 9)]) fun t => t.pc == 0xFF) = true ∧
    readsFlags (.jeq 0) = true ∧ setsPc 0x55 = true ∧ setsPc 0x82 = false := by decide

theorem witness_OperandCheck :
    ((Instr.st 7 8).regOperands = [7] ++ 8 :: [] ∧ ∀ p ∈ [(7 : Byte)], p.toNat < 8) ∧ 8 ≤ (8 : Byte).toNat ∧
    (Instr.jeq 255).regOperands = [] ++ 255 :: [] := by decide

theorem witness_WellFormedCompletes :
    (Instr.div 0 1).wf = true ∧ (start 0 [] [(1, 1)]).status = .running ∧
    dividesByZero (.div 0 1) (start 0 [] [(1, 1)]) = false ∧ Instr.hlt.wf = true := by decide

theorem witness_PlacedWordRuns :
    State.reset.status = .running ∧ (start 0xFD []).pc.toNat ≤ 253 ∧ (decodeTableWord 24 0x080082).isSome := by decide

/-- Each cause at the edge of its condition, and a cycle with none. -/
theorem witness_FaultPriority :
    (start 0xFE [0xC7]).pc.toNat ≤ 256 ∧ cycleFault (start 0xFE [0xC7]) = some (.outOfRangeAccess .mem 256) ∧
    cycleFault (start 0xFD [0xC7, 8, 8]) = some (.decodeError 0xC7) ∧
    cycleFault (start 0 [0xA3, 8, 9]) = some (.outOfRangeAccess .reg 8) ∧
    cycleFault (start 0 [0xA3, 7, 9]) = some (.outOfRangeAccess .reg 9) ∧
    cycleFault (start 0 [0xA3, 7, 1]) = some (.arithmeticError 0xA3) ∧
    cycleFault (start 0xFD [0xA3, 1, 7]) = none := by decide

theorem witness_FaultsArePrecise :
    (start 0 [0xA3, 7, 1] [(2, 5)] [] 9).status = .running ∧
    faults (start 0 [0xA3, 7, 1] [(2, 5)] [] 9) (.arithmeticError 0xA3) 0 = true := by decide

/-- A running state, and the state after a fault at `pc` 256. -/
theorem witness_FaultRecordCodes :
    Inv (start 0xFD []) ∧
    Inv { start 0x100 [] with status := .faulted, fault := some ⟨.outOfRangeAccess .mem 256, 0x100⟩ } := by
  refine ⟨⟨by decide, by decide, by decide, fun _ h => by cases h⟩, by decide, by decide, by decide, fun r h => ?_⟩
  cases h
  exact ⟨rfl, rfl⟩

theorem witness_RegisterWriters :
    (leads (start 0 [0x82, 7, 9]) fun t => t.regs[7] != (start 0 []).regs[7]) = true ∧
    (leads (start 0 [0x45, 0]) fun t => t.regs[7] != (start 0 []).regs[7]) = true ∧
    (leads (start 0 [0x13] [(5, 9)]) fun t => t.regs[5] != 9) = true := by decide

theorem witness_FlagWriters :
    (leads (start 0 [0xA7, 0, 0]) fun t => t.fl != 0) = true ∧
    (leads (start 0 [0x13] [] [] 1) fun t => t.fl != 1) = true := by decide

theorem witness_FlagsReadOnlyByJumps :
    readsFlags (.add 0 1) = false ∧ (leads (start 0 [0xA0, 0, 1] [(1, 2)] [] 7) fun t => t.regs[0] == 2) = true := by decide

theorem witness_HighFlagBitsUnread :
    (∀ k < 3, (0b11111001 : Byte).getLsbD k = (start 0 [0x55, 0] [] [] 1).fl.getLsbD k) ∧
    (leads (start 0 [0x55, 0] [] [] 1) fun t => t.pc == 0) = true := by decide

theorem witness_TraceOnlyGrows :
    (start 0xFD [0x47, 7]).status = .running ∧ cycleFault (start 0 [0x47, 8]) ≠ none ∧
    (start 0xFD [0x47, 7]).pc.toNat ≤ 253 ∧ instrAtPc (start 0xFD [0x47, 7]) = some (.prn 7) ∧
    emitted (.prn 7) (start 0 []) = [⟨.num, 0xF4⟩] := by decide

theorem witness_TraceNeverRead : (leads (start 0 [0x48, 0]) fun t => decide (t.trace = [⟨.chr, 0⟩])) = true := by decide

theorem witness_DecimalText : (Event.line ⟨.num, 0⟩).head? = some '0' ∧ (Event.line ⟨.num, 100⟩).head? ≠ some '0' ∧ '0' ∈ Event.line ⟨.num, 100⟩ := by decide

theorem witness_LdiRule : EdgeRegisters ∧
    answers (.ldi 7 255) (start 0 []) { start 0 [] [(7, 255)] with pc := 3 } = true := by
  refine ⟨by unfold EdgeRegisters; decide, by decide⟩
theorem witness_LdRule : EdgeRegisters ∧
    answers (.ld 7 0) (start 0 [0x83] [(0, 0)]) { start 0 [0x83] [(7, 0x83)] with pc := 3 } = true := by
  refine ⟨by unfold EdgeRegisters; decide, by decide⟩
theorem witness_StRule : EdgeRegisters ∧
    answers (.st 7 0) (start 0 [] [(0, 9)]) { start 0 [] [(0, 9)] [(0xF4, 9)] with pc := 3 } = true := by
  refine ⟨by unfold EdgeRegisters; decide, by decide⟩
theorem witness_PushRule : EdgeRegisters ∧
    answers (.push 7) (start 0 []) { start 0 [] [(7, 0xF3)] [(0xF3, 0xF3)] with pc := 2 } = true ∧
    254 ≤ (start 0xFE []).pc.toNat ∧ (start 0x100 []).pc.toNat ≤ 256 := by
  refine ⟨by unfold EdgeRegisters; decide, by decide, by decide, by decide⟩
theorem witness_PopRule : EdgeRegisters ∧
    answers (.pop 7) (start 0 [] [(7, 0xFF)] [(0xFF, 0xFF)])
      { start 0 [] [(7, 0)] [(0xFF, 0xFF)] with pc := 2 } = true ∧
    254 ≤ (start 0xFE []).pc.toNat ∧ (start 0x100 []).pc.toNat ≤ 256 := by
  refine ⟨by unfold EdgeRegisters; decide, by decide, by decide, by decide⟩
theorem witness_PushPopRoundTrip :
    (7 : Byte).toNat < 8 ∧ answers (.push 7) (start 0 []) { start 0 [] [(7, 0xF3)] [(0xF3, 0xF3)] with pc := 2 } = true ∧
    answers (.pop 7) { start 0 [] [(7, 0xF3)] [(0xF3, 0xF3)] with pc := 2 }
      { start 0 [] [] [(0xF3, 0xF3)] with pc := 4 } = true := by decide
theorem witness_CallRule : EdgeRegisters ∧ (start 0xFD []).pc.toNat ≤ 253 ∧
    answers (.call 7) (start 0xFD []) { start 0xFD [] [(7, 0xF3)] [(0xF3, 0xFF)] with pc := 0xF3 } = true := by
  refine ⟨by unfold EdgeRegisters; decide, by decide, by decide⟩
/-- The subroutine has changed a register, a cell and the flags, and left `sp` and the return cell. -/
theorem witness_CallRetRoundTrip :
    (7 : Byte).toNat < 8 ∧ (start 0xFD []).pc.toNat ≤ 253 ∧
    answers (.call 7) (start 0xFD []) { start 0xFD [] [(7, 0xF3)] [(0xF3, 0xFF)] with pc := 0xF3 } = true ∧
    (start 0x80 [] [(7, 0xF3), (2, 9)] [(0xF3, 0xFF), (0x40, 5)] 1).regs[7] = 0xF3 ∧
    (start 0x80 [] [(7, 0xF3), (2, 9)] [(0xF3, 0xFF), (0x40, 5)] 1).mem.get 0xF3 = 0xFF ∧
    answers .ret (start 0x80 [] [(7, 0xF3), (2, 9)] [(0xF3, 0xFF), (0x40, 5)] 1)
      (start 0xFF [] [(2, 9)] [(0xF3, 0xFF), (0x40, 5)] 1) = true := by decide
theorem witness_JmpRule : EdgeRegisters ∧
    answers (.jmp 7) (start 9 []) { start 9 [] with pc := 0xF4 } = true := by
  refine ⟨by unfold EdgeRegisters; decide, by decide⟩

/-- For each condition flags that meet it and flags that do not. -/
theorem witness_ConditionalJumps : EdgeRegisters ∧
    (condEQ 1 && !condEQ 0xFE && condGT 2 && !condGT 0xFD && condLT 4 && !condLT 0xFB && condGE 1 && condGE 2 &&
      !condGE 0xFC && condLE 1 && condLE 4 && !condLE 0xFA) = true ∧
    answers (.jge 7) (start 9 [] [] [] 2) { start 9 [] [] [] 2 with pc := 0xF4 } = true := by
  refine ⟨by unfold EdgeRegisters; decide, by decide, by decide⟩
theorem witness_JneJumpsWhenEClear : EdgeRegisters ∧
    answers (.jne 7) (start 9 [] [] [] 0xFE) { start 9 [] [] [] 0xFE with pc := 0xF4 } = true ∧
    answers (.jne 7) (start 9 [] [] [] 3) { start 9 [] [] [] 3 with pc := 11 } = true := by
  refine ⟨by unfold EdgeRegisters; decide, by decide, by decide⟩

/-- The three outcomes of a comparison. -/
theorem witness_CompareThenJump : EdgeRegisters ∧
    answers (.cmp 7 0) (start 0 []) { start 0 [] [] [] 2 with pc := 3 } = true ∧
    answers (.cmp 0 0) (start 0 []) { start 0 [] [] [] 1 with pc := 3 } = true ∧
    answers (.cmp 0 7) (start 0 []) { start 0 [] [] [] 4 with pc := 3 } = true := by
  refine ⟨by unfold EdgeRegisters; decide, by decide, by decide, by decide⟩
theorem witness_AddSubMulRule : EdgeRegisters ∧
    answers (.mul 7 7) (start 0 [] [(7, 0xFF)]) { start 0 [] [(7, 1)] with pc := 3 } = true := by
  refine ⟨by unfold EdgeRegisters; decide, by decide⟩

/-- Divisor 0 and divisor 1. -/
theorem witness_DivModRule : EdgeRegisters ∧
    (start 0 []).regs[0] = 0 ∧ (start 0 [] [(0, 1)]).regs[0] ≠ 0 ∧
    answers (.div 7 0) (start 0 [])
      { start 0 [] with status := .faulted, fault := some ⟨.arithmeticError 0xA3, 0⟩ } = true ∧
    answers (.mod 7 0) (start 0 [] [(0, 1)]) { start 0 [] [(0, 1), (7, 0)] with pc := 3 } = true := by
  refine ⟨by unfold EdgeRegisters; decide, by decide, by decide, by decide, by decide⟩
theorem witness_DivModFitTogether :
    (start 0 [] [(1, 100)]).regs[1] ≠ 0 ∧
    answers (.div 7 1) (start 0 [] [(1, 100)]) { start 0 [] [(1, 100), (7, 2)] with pc := 3 } = true ∧
    answers (.mod 7 1) (start 0 [] [(1, 100)]) { start 0 [] [(1, 100), (7, 44)] with pc := 3 } = true := by decide
theorem witness_AddiRule : EdgeRegisters ∧
    answers (.addi 7 255) (start 0 []) { start 0 [] [(7, 0xF3)] with pc := 3 } = true := by
  refine ⟨by unfold EdgeRegisters; decide, by decide⟩
theorem witness_IncDecNotRule : EdgeRegisters ∧
    answers (.dec 0) (start 0 []) { start 0 [] [(0, 255)] with pc := 2 } = true := by
  refine ⟨by unfold EdgeRegisters; decide, by decide⟩
theorem witness_AndOrXorRule : EdgeRegisters ∧
    answers (.xor 7 7) (start 0 []) { start 0 [] [(7, 0)] with pc := 3 } = true := by
  refine ⟨by unfold EdgeRegisters; decide, by decide⟩
theorem witness_ShiftRule : EdgeRegisters ∧
    answers (.shl 7 0) (start 0 [] [(0, 255)]) { start 0 [] [(0, 255), (7, 0)] with pc := 3 } = true ∧
    answers (.shr 7 0) (start 0 [] [(0, 7)]) { start 0 [] [(0, 7), (7, 1)] with pc := 3 } = true := by
  refine ⟨by unfold EdgeRegisters; decide, by decide, by decide⟩
theorem witness_CmpRule : EdgeRegisters ∧
    answers (.cmp 0 7) (start 0 [] [] [] 255) { start 0 [] [] [] 4 with pc := 3 } = true := by
  refine ⟨by unfold EdgeRegisters; decide, by decide⟩
theorem witness_PrintRule : EdgeRegisters ∧
    answers (.pra 7) (start 0 []) { start 0 [] with pc := 2, trace := [⟨.chr, 0xF4⟩] } = true := by
  refine ⟨by unfold EdgeRegisters; decide, by decide⟩

end Sys2Proof.Tests
end

/-! Proofs of the family 10_state.md: what every instruction and every step can answer, said once (`exec_answers`,
`step_answers`), what that leaves unchanged, and what the flags can influence. -/

namespace Sys2Proof.Safety

open Sys2Proof.Machine

/-! ## Which instruction stands at `pc` -/

/-- Every row of the opcode map builds instructions of its own opcode. -/
theorem opcodeOf_build_of_mem {row : OpcodeRow} (h : row ∈ opcodeTable) (a b : Byte) :
    opcodeOf (row.shape.build a b) = row.opcode := by
  revert row
  simp [opcodeTable, Shape.build, opcodeOf]

/-- A decoded instruction has the opcode it was decoded from. -/
theorem opcodeOf_of_decode {opcode a b : Byte} {i : Instr} (h : decode opcode a b = .ok i) : opcodeOf i = opcode := by
  unfold decode lookupOpcode at h
  cases hrow : opcodeTable.find? (fun r => r.opcode == opcode) with
  | none => simp [hrow] at h
  | some row =>
    have hop : row.opcode = opcode := by simpa using List.find?_some hrow
    have hi : row.shape.build a b = i := by simpa [hrow] using h
    rw [← hi, opcodeOf_build_of_mem (List.mem_of_find?_eq_some hrow), hop]

theorem instrAtPc_eq_some_iff {s : State} {i : Instr} :
    instrAtPc s = some i ↔ decode (byteAtPc s 0) (byteAtPc s 1) (byteAtPc s 2) = .ok i := by
  unfold instrAtPc
  cases decode (byteAtPc s 0) (byteAtPc s 1) (byteAtPc s 2) <;> simp

/-- Below address 254 the instruction dispatched is the one that stands at `pc`. -/
theorem fetchDecode_eq_ok_iff {s : State} {i : Instr} :
    fetchDecode s = .ok i ↔ s.pc.toNat ≤ 253 ∧ instrAtPc s = some i := by
  rw [instrAtPc_eq_some_iff]
  exact ⟨fetchDecode_inv, fun ⟨hpc, hi⟩ => fetchDecode_ok hpc hi⟩

/-- The instruction at `pc` has the opcode byte at `pc`. -/
theorem opcodeOf_instrAtPc {s : State} {i : Instr} (h : instrAtPc s = some i) : opcodeOf i = byteAtPc s 0 :=
  opcodeOf_of_decode (instrAtPc_eq_some_iff.mp h)

/-- The faults before dispatch have listed details where `pc` is in 0..256. -/
theorem detailListed_of_fetchDecode {s : State} {c : FaultCause} (hpc : s.pc.toNat ≤ 256)
    (h : fetchDecode s = .error c) : DetailListed c := by
  by_cases hlow : s.pc.toNat ≤ 253
  · cases hd : decode (s.mem.get s.pc.toNat) (s.mem.get (s.pc.toNat + 1)) (s.mem.get (s.pc.toNat + 2)) with
    | ok i => cases (fetchDecode_ok hlow hd).symm.trans h
    | error r =>
      obtain ⟨rfl, hnone⟩ := decode_error hd
      obtain rfl := Except.error.inj ((fetchDecode_reject hlow hd).symm.trans h)
      exact hnone
  · obtain rfl := Except.error.inj ((fetchDecode_outside (by omega)).symm.trans h)
    exact Nat.max_eq_left hpc

/-! ## Targets and the default advance -/

@[simp] theorem target_toNat (v : Byte) : (target v).toNat = v.toNat :=
  BitVec.toNat_setWidth_of_le (by decide)

@[simp] theorem setWidth_target (v : Byte) : (target v).setWidth 8 = v :=
  BitVec.setWidth_setWidth_of_le v (by decide)

/-- Bit 4 of the opcode marks the instructions that transfer control. -/
theorem setsPc_opcodeOf (i : Instr) : setsPc (opcodeOf i) = transfersControl i := by
  cases i <;> simp [opcodeOf, setsPc, transfersControl]

theorem instructionLength_le (i : Instr) : instructionLength (opcodeOf i) ≤ 3 := by
  cases i <;> simp [opcodeOf, instructionLength, operandCount]

theorem advance_pc_of_transfersControl {i : Instr} (s : State) (h : transfersControl i = true) :
    (advance i s).pc = s.pc := by
  rw [advance_setsPc i s (by rw [setsPc_opcodeOf, h])]

/-- The default advance does not wrap below address 254. -/
theorem advance_pc_toNat {i : Instr} {s : State} (h : transfersControl i = false) (hpc : s.pc.toNat ≤ 253) :
    (advance i s).pc.toNat = s.pc.toNat + instructionLength (opcodeOf i) := by
  have hlen := instructionLength_le i
  rw [advance_default i s (by rw [setsPc_opcodeOf, h]), State.pc_setPc, BitVec.toNat_add, BitVec.toNat_ofNat]
  omega

theorem pc_add_two_toNat {p : PcWord} (hp : p.toNat ≤ 253) : (p + 2).toNat = p.toNat + 2 := by
  bv_omega

/-! ## What a handler can do -/

/-- What a handler that completes makes of the state, before the advance: the form of the change by kind of instruction, the
values written left open. -/
inductive Effect (s : State) : Instr → State → Prop
  | nop : Effect s .nop s
  | write {i : Instr} {a : Byte} (ha : a.toNat < 8) (v : Byte) (hdest : destOperand i = some a)
      (hcontrol : transfersControl i = false) : Effect s i (s.setReg ⟨a.toNat, ha⟩ v)
  | cmp {a b : Byte} (v : Byte) : Effect s (.cmp a b) (s.setFl v)
  | prn {a : Byte} (v : Byte) : Effect s (.prn a) (emit .num v s)
  | pra {a : Byte} (v : Byte) : Effect s (.pra a) (emit .chr v s)
  | st {a b : Byte} (addr v : Byte) : Effect s (.st a b) { s with mem := s.mem.put addr.toNat v }
  | push {a : Byte} (v : Byte) : Effect s (.push a) { decSp s with mem := s.mem.put (s.sp - 1).toNat v }
  | pop {a : Byte} (ha : a.toNat < 8) (v : Byte) : Effect s (.pop a) (incSp (s.setReg ⟨a.toNat, ha⟩ v))
  | call {a : Byte} (v dest : Byte) :
      Effect s (.call a) (State.setPc { decSp s with mem := s.mem.put (s.sp - 1).toNat v } (target dest))
  | ret (dest : Byte) : Effect s .ret ((incSp s).setPc (target dest))
  | iret (regs : Vector Byte Config.hardware.nreg) (flags dest : Byte) :
      Effect s .iret { s with regs := regs, fl := flags, pc := target dest }
  | jump {i : Instr} {a : Byte} (ha : a.toNat < 8) (hop : operandBytes i = [a]) (hcontrol : transfersControl i = true) :
      Effect s i (s.setPc (target (s.reg ⟨a.toNat, ha⟩)))
  | fallThrough {i : Instr} (hcond : readsFlags i = true) : Effect s i (s.setPc (s.pc + 2))

/-- What a handler can answer: an effect, or a fault of a listed detail. -/
inductive HandlerAnswers (s : State) (i : Instr) : Except FaultCause State → Prop
  | ok {u : State} (h : Effect s i u) : HandlerAnswers s i (.ok u)
  | error {c : FaultCause} (h : DetailListed c) : HandlerAnswers s i (.error c)

/-- What an instruction can answer: HLT halts; a fault of a listed detail is entered; or an effect is followed by the
advance. -/
inductive ExecAnswers (s : State) : Instr → State → Prop
  | halt : ExecAnswers s .hlt (s.setStatus .halted)
  | fault {i : Instr} {c : FaultCause} (h : DetailListed c) : ExecAnswers s i (raiseFault c s)
  | done {i : Instr} {u : State} (h : Effect s i u) : ExecAnswers s i (advance i u)

section

variable {i : Instr} {a b : Byte} {s t : State}

theorem retire_answers {r : Except FaultCause State} (h : retire i s r = .next t) (hr : HandlerAnswers s i r) :
    ExecAnswers s i t := by
  obtain ⟨u, rfl, rfl⟩ | ⟨c, rfl, rfl⟩ := retire_cases h
  · cases hr with | ok hu => exact .done hu
  · cases hr with | error hc => exact .fault hc

theorem detailListed_reg {c : Byte} (h : 8 ≤ c.toNat) : DetailListed (.outOfRangeAccess .reg c.toNat) :=
  ⟨h, Nat.le_of_lt_succ c.isLt⟩

theorem onReg_answers {handler : RegIndex → Except FaultCause State} (h : onReg i a s handler = .next t)
    (hh : ∀ ha : a.toNat < 8, HandlerAnswers s i (handler ⟨a.toNat, ha⟩)) : ExecAnswers s i t := by
  obtain ⟨ha, h⟩ | ⟨hbad, rfl⟩ := onReg_cases h
  · exact retire_answers h (hh ha)
  · exact .fault (detailListed_reg hbad)

theorem onRegs_answers {handler : RegIndex → RegIndex → Except FaultCause State} (h : onRegs i a b s handler = .next t)
    (hh : ∀ (ha : a.toNat < 8) (hb : b.toNat < 8), HandlerAnswers s i (handler ⟨a.toNat, ha⟩ ⟨b.toNat, hb⟩)) :
    ExecAnswers s i t := by
  obtain ⟨ha, hb, h⟩ | ⟨c, hbad, rfl⟩ := onRegs_cases h
  · exact retire_answers h (hh ha hb)
  · exact .fault (detailListed_reg hbad)

theorem divideRegs_answers {f : Byte → Byte → Byte} (h : divideRegs i a b f s = .next t)
    (hdest : destOperand i = some a) (hcontrol : transfersControl i = false)
    (hop : opcodeOf i = 0xA3 ∨ opcodeOf i = 0xA4) : ExecAnswers s i t := by
  refine onRegs_answers h fun ha hb => ?_
  by_cases hzero : s.reg ⟨b.toNat, hb⟩ = 0#8
  · rw [if_pos hzero]; exact .error hop
  · rw [if_neg hzero]; exact .ok (.write ha _ hdest hcontrol)

theorem jumpIf_answers {taken : Bool} (h : jumpIf i taken a s = .next t) (hop : operandBytes i = [a])
    (hcontrol : transfersControl i = true) (htaken : taken = true ∨ readsFlags i = true) : ExecAnswers s i t := by
  refine onReg_answers h fun ha => .ok ?_
  cases taken with
  | true => exact .jump ha hop hcontrol
  | false => exact .fallThrough (htaken.resolve_left Bool.false_ne_true)

theorem execPush_answers (h : execPush a s = .next t) : ExecAnswers s (.push a) t :=
  onReg_answers h fun _ => by rw [push_eq]; exact .ok (.push _)

theorem execPop_answers (h : execPop a s = .next t) : ExecAnswers s (.pop a) t :=
  onReg_answers h fun ha => by rw [memRead_byte]; exact .ok (.pop ha _)

theorem execLd_answers (h : execLd a b s = .next t) : ExecAnswers s (.ld a b) t :=
  onRegs_answers h fun ha _ => by rw [memRead_byte]; exact .ok (.write ha _ rfl rfl)

theorem execSt_answers (h : execSt a b s = .next t) : ExecAnswers s (.st a b) t :=
  onRegs_answers h fun _ _ => by rw [memWrite_byte]; exact .ok (.st _ _)

theorem execCall_answers (h : execCall a s = .next t) : ExecAnswers s (.call a) t :=
  onReg_answers h fun _ => by rw [push_eq]; exact .ok (.call _ _)

theorem execRet_answers (h : execRet s = .next t) : ExecAnswers s .ret t :=
  retire_answers h (by rw [pop_eq]; exact .ok (.ret _))

/-- `u` is `s` but for the registers. -/
def WritesRegs (s u : State) : Prop := ∃ regs, u = { s with regs := regs }

theorem WritesRegs.trans {s u v : State} : WritesRegs s u → WritesRegs u v → WritesRegs s v := by
  rintro ⟨_, rfl⟩ ⟨regs, rfl⟩
  exact ⟨regs, rfl⟩

theorem popReg_writesRegs {r : RegIndex} {u : State} (h : popReg r s = .ok u) : WritesRegs s u :=
  ⟨_, Except.ok.inj (h.symm.trans (popReg_eq r s))⟩

theorem pop_writesRegs {v : Byte} {u : State} (h : pop s = .ok (v, u)) : WritesRegs s u :=
  ⟨_, (Prod.mk.inj (Except.ok.inj (h.symm.trans (pop_eq s)))).2⟩

/-- The nine pops of IRET write registers only. -/
theorem iretPops_writesRegs {s6 s5 s4 s3 s2 s1 s0 sFlags sDest : State} {flags dest : Byte}
    (h : IretPops s s6 s5 s4 s3 s2 s1 s0 sFlags sDest flags dest) : WritesRegs s sDest := by
  obtain ⟨h6, h5, h4, h3, h2, h1, h0, hflags, hdest⟩ := h
  exact (popReg_writesRegs h6).trans <| (popReg_writesRegs h5).trans <| (popReg_writesRegs h4).trans <|
    (popReg_writesRegs h3).trans <| (popReg_writesRegs h2).trans <| (popReg_writesRegs h1).trans <|
    (popReg_writesRegs h0).trans <| (pop_writesRegs hflags).trans (pop_writesRegs hdest)

theorem execIret_answers (h : execIret s = .next t) : ExecAnswers s .iret t := by
  obtain ⟨_, _, _, _, _, _, _, _, sDest, flags, dest, hpops⟩ := iretPops_exist s
  obtain ⟨regs, rfl⟩ := iretPops_writesRegs hpops
  obtain rfl := Host.Outcome.next.inj ((execIret_of_pops hpops).symm.trans h)
  have hdone : ExecAnswers s .iret (advance .iret _) := .done (.iret regs flags dest)
  rwa [advance_setsPc .iret _ rfl] at hdone

/-- Everything an instruction can answer. -/
theorem exec_answers {i : Instr} {s t : State} (h : exec i s = .next t) : ExecAnswers s i t := by
  cases i with
  | nop => exact retire_answers (r := .ok s) h (.ok .nop)
  | hlt => exact Host.Outcome.next.inj h ▸ .halt
  | ret => exact execRet_answers h
  | iret => exact execIret_answers h
  | push a => exact execPush_answers h
  | pop a => exact execPop_answers h
  | prn a => exact onReg_answers h fun _ => .ok (.prn _)
  | pra a => exact onReg_answers h fun _ => .ok (.pra _)
  | call a => exact execCall_answers h
  | jmp a => exact jumpIf_answers h rfl rfl (.inl rfl)
  | jeq a | jne a | jgt a | jlt a | jle a | jge a => exact jumpIf_answers h rfl rfl (.inr rfl)
  | inc a | dec a | not a | addi a _ | ldi a _ => exact onReg_answers h fun ha => .ok (.write ha _ rfl rfl)
  | ld a b => exact execLd_answers h
  | st a b => exact execSt_answers h
  | add a b | sub a b | mul a b | and a b | or a b | xor a b | shl a b | shr a b =>
    exact onRegs_answers h fun ha _ => .ok (.write ha _ rfl rfl)
  | div a b => exact divideRegs_answers h rfl rfl (.inl rfl)
  | mod a b => exact divideRegs_answers h rfl rfl (.inr rfl)
  | cmp a b => exact onRegs_answers h fun _ _ => .ok (.cmp _)

end

/-! ## What an effect leaves unchanged -/

section

variable {i : Instr} {s t u : State}

theorem Effect.status_eq (h : Effect s i u) : u.status = s.status := by cases h <;> rfl

theorem Effect.fault_eq (h : Effect s i u) : u.fault = s.fault := by cases h <;> rfl

theorem Effect.mem_wf (h : Effect s i u) (hs : s.mem.wf = true) : u.mem.wf = true := by
  cases h with
  | st addr v => exact Memory.wf_put _ _ _ addr.isLt hs
  | push v | call v _ => exact Memory.wf_put _ _ _ (s.sp - 1).isLt hs
  | nop | write | cmp | prn | pra | pop | ret | iret | jump | fallThrough => exact hs

/-- A conditional jump transfers control. -/
theorem transfersControl_of_readsFlags (h : readsFlags i = true) : transfersControl i = true := by
  revert h
  cases i <;> simp [readsFlags, transfersControl]

theorem Effect.pc_eq (h : Effect s i u) (hi : transfersControl i = false) : u.pc = s.pc := by
  cases h with
  | call | ret | iret => cases hi
  | jump _ _ hcontrol => simp [hi] at hcontrol
  | fallThrough hcond => simp [transfersControl_of_readsFlags hcond] at hi
  | nop | write | cmp | prn | pra | st | push | pop => rfl

/-- A transfer of control leads to a byte or to `pc + 2`. -/
theorem Effect.pc_le (h : Effect s i u) (hi : transfersControl i = true) (hpc : s.pc.toNat ≤ 253) :
    u.pc.toNat ≤ 255 := by
  have hbyte (v : Byte) : (target v).toNat ≤ 255 := by rw [target_toNat]; omega
  cases h with
  | nop | cmp | prn | pra | st | push | pop => cases hi
  | write _ _ _ hcontrol => simp [hi] at hcontrol
  | call _ dest | ret dest | iret _ _ dest => exact hbyte dest
  | jump => exact hbyte _
  | fallThrough => exact (pc_add_two_toNat hpc).trans_le (by omega)

/-- A conditional jump leads to `pc + 2` or to the byte in its register. -/
theorem Effect.pc_of_readsFlags (h : Effect s i u) (hi : readsFlags i = true) (hpc : s.pc.toNat ≤ 253) :
    u.pc.toNat = s.pc.toNat + 2 ∨ ∃ a ∈ operandBytes i, operandValue s a = some (u.pc.setWidth 8) := by
  cases h with
  | nop | cmp | prn | pra | st | push | pop | call | ret | iret => cases hi
  | write _ _ _ hcontrol => simp [transfersControl_of_readsFlags hi] at hcontrol
  | @jump _ a ha hop => exact .inr ⟨a, by simp [hop], by simp [operandValue, State.reg, ha]⟩
  | fallThrough => exact .inl (pc_add_two_toNat hpc)

/-- Setting a register changes no other. -/
theorem eq_of_set_ne {regs : Vector Byte 8} {k r : Nat} {v : Byte} {hr : r < 8} (hk : k < 8)
    (h : (regs.set k v hk)[r] ≠ regs[r]) : k = r := by
  by_contra hne
  exact h (Vector.getElem_set_ne hk hr hne)

/-- A push, a pop, a CALL or a RET may write register 7. -/
theorem mayWriteReg_seven {r : RegIndex} (hi : movesStack i = true) (hr : 7 = r.val) : mayWriteReg i r = true := by
  obtain rfl : r = 7 := Fin.ext hr.symm
  simp [mayWriteReg, hi]

theorem mayWriteReg_dest {a : Byte} {r : RegIndex} (hi : destOperand i = some a) (hr : a.toNat = r.val) :
    mayWriteReg i r = true := by
  simp [mayWriteReg, hi, hr]

/-- A register is changed by its name, by a move of the stack, or by IRET. -/
theorem Effect.mayWriteReg_of_ne (h : Effect s i u) (r : RegIndex) (hr : u.regs[r.val] ≠ s.regs[r.val]) :
    mayWriteReg i r = true := by
  cases h with
  | nop | cmp | prn | pra | st | jump | fallThrough => exact absurd rfl hr
  | write ha v hdest => exact mayWriteReg_dest hdest (eq_of_set_ne ha hr)
  | push | call | ret => exact mayWriteReg_seven rfl (eq_of_set_ne (by decide) hr)
  | iret => simp [mayWriteReg]
  | pop ha v =>
    by_cases hname : (s.setReg ⟨_, ha⟩ v).regs[r.val] = s.regs[r.val]
    · exact mayWriteReg_seven rfl (eq_of_set_ne (by decide) (hname ▸ hr))
    · exact mayWriteReg_dest rfl (eq_of_set_ne ha hname)

/-! ## Every step -/

theorem advance_pc_le (h : Effect s i u) (hpc : s.pc.toNat ≤ 253) : (advance i u).pc.toNat ≤ 256 := by
  cases hi : transfersControl i with
  | true =>
    rw [advance_pc_of_transfersControl u hi]
    exact (h.pc_le hi hpc).trans (by decide)
  | false =>
    have hlen := instructionLength_le i
    rw [advance_pc_toNat hi (by rwa [h.pc_eq hi]), h.pc_eq hi]
    omega

/-- Everything a step can be, as `step_cases` with the instruction's answer taken apart. -/
theorem step_answers (h : step s = .next t) :
    (s.status ≠ .running ∧ t = s) ∨
    (s.status = .running ∧ ∃ c, fetchDecode s = .error c ∧ t = raiseFault c s) ∨
    (s.status = .running ∧ ∃ i, s.pc.toNat ≤ 253 ∧ instrAtPc s = some i ∧ ExecAnswers s i t) := by
  obtain h | h | ⟨hs, i, hi, h⟩ := step_cases h
  · exact .inl h
  · exact .inr (.inl h)
  · obtain ⟨hpc, hi⟩ := fetchDecode_eq_ok_iff.mp hi
    exact .inr (.inr ⟨hs, i, hpc, hi, exec_answers h⟩)

theorem Inv.raiseFault {c : FaultCause} (hs : Inv s) (hc : DetailListed c) : Inv (raiseFault c s) where
  memCanonical := hs.memCanonical
  pcInRange := hs.pcInRange
  recordIffFaulted := by simp
  recordListed r hr := by
    obtain rfl := Option.some.inj hr
    exact ⟨hc, rfl⟩

/-- No fault is recorded while the engine runs. -/
theorem Inv.fault_eq_none (hs : Inv s) (hrun : s.status = .running) : s.fault = none := by
  simpa [hrun] using hs.recordIffFaulted

/-- A state that is not FAULTED needs no fault record to meet the invariant. -/
theorem inv_of_fault_none (hmem : s.mem.wf = true) (hpc : s.pc.toNat ≤ 256) (hstatus : s.status ≠ .faulted)
    (hfault : s.fault = none) : Inv s where
  memCanonical := hmem
  pcInRange := hpc
  recordIffFaulted := by simp [hstatus, hfault]
  recordListed r hr := by simp [hfault] at hr

/-- What an instruction answers in a running engine below address 254 meets the invariant. -/
theorem ExecAnswers.inv (h : ExecAnswers s i t) (hs : Inv s) (hrun : s.status = .running) (hpc : s.pc.toNat ≤ 253) :
    Inv t := by
  cases h with
  | halt => exact inv_of_fault_none hs.memCanonical hs.pcInRange (by simp) (hs.fault_eq_none hrun)
  | fault hc => exact hs.raiseFault hc
  | done hu =>
    refine inv_of_fault_none ?_ (advance_pc_le hu hpc) ?_ ?_
    · rw [advance_mem]; exact hu.mem_wf hs.memCanonical
    · simp [hu.status_eq, hrun]
    · rw [advance_fault, hu.fault_eq, hs.fault_eq_none hrun]

theorem core_run_stopped (hs : s.status ≠ .running) (k : Nat) : Sys2Proof.core.run k s = .next s := by
  induction k with
  | zero => rfl
  | succ k ih =>
    have hstep : Sys2Proof.core.step s = .next s := step_stopped hs
    simpa only [Host.Core.run, hstep] using ih

/-- A running engine that stops has executed HLT or entered a fault. -/
theorem stopped_cases (hrun : s.status = .running) (h : step s = .next t) (ht : t.status ≠ .running) :
    (instrAtPc s = some .hlt ∧ t = s.setStatus .halted) ∨ ∃ c, t = raiseFault c s := by
  obtain ⟨hstop, -⟩ | ⟨-, c, -, rfl⟩ | ⟨-, i, -, hat, hi⟩ := step_answers h
  · exact absurd hrun hstop
  · exact .inr ⟨c, rfl⟩
  · cases hi with
    | halt => exact .inl ⟨hat, rfl⟩
    | fault => exact .inr ⟨_, rfl⟩
    | done hu => exact absurd (by rw [advance_status, hu.status_eq, hrun]) ht

/-- A HLT at `pc` halts a running engine. -/
theorem step_hlt (hrun : s.status = .running) (hpc : s.pc.toNat ≤ 253) (hat : instrAtPc s = some .hlt) :
    step s = .next (s.setStatus .halted) :=
  step_dispatch hrun (fetchDecode_eq_ok_iff.mpr ⟨hpc, hat⟩)

/-- A running engine that goes on has run an effect of the instruction at `pc`. -/
theorem running_cases (h : step s = .next t) (hrun : s.status = .running) (ht : t.status = .running) :
    ∃ i u, s.pc.toNat ≤ 253 ∧ instrAtPc s = some i ∧ Effect s i u ∧ t = advance i u := by
  obtain ⟨hstop, -⟩ | ⟨-, c, -, rfl⟩ | ⟨-, i, hpc, hat, hi⟩ := step_answers h
  · exact absurd hrun hstop
  · cases ht
  · cases hi with
    | halt | fault => cases ht
    | done hu => exact ⟨i, _, hpc, hat, hu, rfl⟩

theorem pc_eq_of_stopped (hrun : s.status = .running) (h : step s = .next t) (ht : t.status ≠ .running) :
    t.pc = s.pc := by
  obtain ⟨-, rfl⟩ | ⟨c, rfl⟩ := stopped_cases hrun h ht <;> rfl

end

/-! ## What flags can influence -/

section

variable {i : Instr} {a b f : Byte} {s : State}

/-- Two answers, the second from the state with flags `f`, agree but for the flags: these are the same in both, or they are
still those of the two states at the start. -/
def AgreeButFlags (s : State) (f : Byte) (r r' : Result) : Prop :=
  ∃ t g, r = .next t ∧ r' = .next (t.setFl g) ∧ (g = t.fl ∨ g = f ∧ t.fl = s.fl)

/-- The same of the answers of a handler: it leaves the flags alone, writes the same flags in both, or faults alike. -/
inductive HandlersAgree (s : State) (f : Byte) : Except FaultCause State → Except FaultCause State → Prop
  | carried {u : State} (hu : u.fl = s.fl) : HandlersAgree s f (.ok u) (.ok (u.setFl f))
  | written (u : State) : HandlersAgree s f (.ok u) (.ok u)
  | error (c : FaultCause) : HandlersAgree s f (.error c) (.error c)

theorem advance_setFl (i : Instr) (s : State) (f : Byte) : advance i (s.setFl f) = (advance i s).setFl f := by
  simp only [advance_eq]
  rfl

theorem takeFault_agree (c : FaultCause) : AgreeButFlags s f (takeFault c s) (takeFault c (s.setFl f)) :=
  ⟨raiseFault c s, f, rfl, rfl, .inr ⟨rfl, rfl⟩⟩

theorem retire_agree {r r' : Except FaultCause State} (h : HandlersAgree s f r r') :
    AgreeButFlags s f (retire i s r) (retire i (s.setFl f) r') := by
  cases h with
  | @carried u hu =>
    exact ⟨advance i u, f, rfl, congrArg _ (advance_setFl i u f), .inr ⟨rfl, (advance_fl i u).trans hu⟩⟩
  | written u => exact ⟨advance i u, (advance i u).fl, rfl, rfl, .inl rfl⟩
  | error c => exact takeFault_agree c

theorem onReg_agree {handler handler' : RegIndex → Except FaultCause State}
    (h : ∀ ra, HandlersAgree s f (handler ra) (handler' ra)) :
    AgreeButFlags s f (onReg i a s handler) (onReg i a (s.setFl f) handler') := by
  by_cases ha : a.toNat < 8
  · rw [onReg_ok _ _ _ ha, onReg_ok _ _ _ ha]
    exact retire_agree (h _)
  · rw [onReg_error _ _ _ (by omega), onReg_error _ _ _ (by omega)]
    exact takeFault_agree _

theorem onRegs_agree {handler handler' : RegIndex → RegIndex → Except FaultCause State}
    (h : ∀ ra rb, HandlersAgree s f (handler ra rb) (handler' ra rb)) :
    AgreeButFlags s f (onRegs i a b s handler) (onRegs i a b (s.setFl f) handler') := by
  by_cases ha : a.toNat < 8
  · by_cases hb : b.toNat < 8
    · rw [onRegs_ok _ _ _ ha hb, onRegs_ok _ _ _ ha hb]
      exact retire_agree (h _ _)
    · rw [onRegs_error_b _ _ _ ha (by omega), onRegs_error_b _ _ _ ha (by omega)]
      exact takeFault_agree _
  · rw [onRegs_error_a _ _ _ _ (by omega), onRegs_error_a _ _ _ _ (by omega)]
    exact takeFault_agree _

theorem divideRegs_agree {g : Byte → Byte → Byte} :
    AgreeButFlags s f (divideRegs i a b g s) (divideRegs i a b g (s.setFl f)) := by
  refine onRegs_agree fun ra rb => ?_
  have hreg : (s.setFl f).reg rb = s.reg rb := rfl
  rw [hreg]
  by_cases hzero : s.reg rb = 0#8
  · rw [if_pos hzero, if_pos hzero]; exact .error _
  · rw [if_neg hzero, if_neg hzero]; exact .carried rfl

theorem jumpIf_agree {taken taken' : Bool} (h : taken' = taken) :
    AgreeButFlags s f (jumpIf i taken a s) (jumpIf i taken' a (s.setFl f)) := by
  subst h
  exact onReg_agree fun _ => .carried rfl

theorem execLd_agree : AgreeButFlags s f (execLd a b s) (execLd a b (s.setFl f)) :=
  onRegs_agree fun _ _ => by rw [memRead_byte, memRead_byte]; exact .carried rfl

theorem execSt_agree : AgreeButFlags s f (execSt a b s) (execSt a b (s.setFl f)) :=
  onRegs_agree fun _ _ => by rw [memWrite_byte, memWrite_byte]; exact .carried rfl

theorem execPush_agree : AgreeButFlags s f (execPush a s) (execPush a (s.setFl f)) :=
  onReg_agree fun _ => by rw [push_eq, push_eq]; exact .carried rfl

theorem execPop_agree : AgreeButFlags s f (execPop a s) (execPop a (s.setFl f)) :=
  onReg_agree fun _ => by rw [memRead_byte, memRead_byte]; exact .carried rfl

theorem execCall_agree : AgreeButFlags s f (execCall a s) (execCall a (s.setFl f)) :=
  onReg_agree fun _ => by rw [push_eq, push_eq]; exact .carried rfl

theorem execRet_agree : AgreeButFlags s f (execRet s) (execRet (s.setFl f)) :=
  retire_agree (by rw [pop_eq, pop_eq]; exact .carried rfl)

theorem popReg_setFl {r : RegIndex} {u : State} (h : popReg r s = .ok u) :
    popReg r (s.setFl f) = .ok (u.setFl f) := by
  obtain rfl := Except.ok.inj ((popReg_eq r s).symm.trans h)
  exact popReg_eq r (s.setFl f)

theorem pop_setFl {v : Byte} {u : State} (h : pop s = .ok (v, u)) : pop (s.setFl f) = .ok (v, u.setFl f) := by
  obtain ⟨rfl, rfl⟩ := Prod.mk.inj (Except.ok.inj ((pop_eq s).symm.trans h))
  exact pop_eq (s.setFl f)

/-- IRET pops its flags from the stack, whatever the flags were. -/
theorem execIret_setFl (s : State) (f : Byte) : execIret (s.setFl f) = execIret s := by
  obtain ⟨_, _, _, _, _, _, _, _, _, _, _, hpops⟩ := iretPops_exist s
  rw [execIret_of_pops hpops]
  obtain ⟨h6, h5, h4, h3, h2, h1, h0, hflags, hdest⟩ := hpops
  exact (execIret_of_pops ⟨popReg_setFl h6, popReg_setFl h5, popReg_setFl h4, popReg_setFl h3, popReg_setFl h2,
    popReg_setFl h1, popReg_setFl h0, pop_setFl hflags, pop_setFl hdest⟩).trans rfl

theorem execIret_agree : AgreeButFlags s f (execIret s) (execIret (s.setFl f)) := by
  rw [execIret_setFl]
  obtain ⟨t, ht⟩ := retire_next .iret s _
  exact ⟨t, t.fl, ht, ht, .inl rfl⟩

/-- The conditions of the jumps look at the low three bits only. -/
theorem conditions_congr {g : Byte} (h : ∀ k < 3, f.getLsbD k = g.getLsbD k) :
    flagE f = flagE g ∧ flagG f = flagG g ∧ flagL f = flagL g :=
  ⟨h 0 (by decide), h 1 (by decide), h 2 (by decide)⟩

/-- An instruction on two states that differ in the flags, alike in the low three bits where it reads them. -/
theorem exec_agree (hreads : readsFlags i = true → ∀ k < 3, f.getLsbD k = s.fl.getLsbD k) :
    AgreeButFlags s f (exec i s) (exec i (s.setFl f)) := by
  cases i with
  | nop => exact retire_agree (r := .ok s) (.carried rfl)
  | hlt => exact ⟨s.setStatus .halted, f, rfl, rfl, .inr ⟨rfl, rfl⟩⟩
  | ret => exact execRet_agree
  | iret => exact execIret_agree
  | push a => exact execPush_agree
  | pop a => exact execPop_agree
  | call a => exact execCall_agree
  | jmp a => exact jumpIf_agree rfl
  | jeq a | jne a | jgt a | jlt a | jle a | jge a =>
    obtain ⟨hE, hG, hL⟩ := conditions_congr (hreads rfl)
    exact jumpIf_agree (by simp [condEQ, condNE, condGT, condLT, condGE, condLE, hE, hG, hL])
  | prn a | pra a | inc a | dec a | not a | addi a _ | ldi a _ => exact onReg_agree fun _ => .carried rfl
  | ld a b => exact execLd_agree
  | st a b => exact execSt_agree
  | add a b | sub a b | mul a b | and a b | or a b | xor a b | shl a b | shr a b =>
    exact onRegs_agree fun _ _ => .carried rfl
  | div a b | mod a b => exact divideRegs_agree
  | cmp a b => exact onRegs_agree fun _ _ => .written _

/-- The fetch reads no flags. -/
theorem fetchDecode_setFl (s : State) (f : Byte) : fetchDecode (s.setFl f) = fetchDecode s := rfl

/-- A step reads at most the low three bits of the flags. -/
theorem step_agree (hlow : ∀ k < 3, f.getLsbD k = s.fl.getLsbD k) :
    AgreeButFlags s f (step s) (step (s.setFl f)) := by
  by_cases hrun : s.status = .running
  · cases hf : fetchDecode s with
    | ok i =>
      rw [step_dispatch hrun hf, step_dispatch (s := s.setFl f) hrun (by rw [fetchDecode_setFl, hf])]
      exact exec_agree fun _ => hlow
    | error c =>
      rw [step_fault hrun hf, step_fault (s := s.setFl f) hrun (by rw [fetchDecode_setFl, hf])]
      exact takeFault_agree c
  · rw [step_stopped hrun, step_stopped (s := s.setFl f) hrun]
    exact ⟨s, f, rfl, rfl, .inr ⟨rfl, rfl⟩⟩

end

/-! ## The obligations -/

/-- Settles O6: what is left of a step after `step_answers` is nothing, a listed fault, or an instruction's answer. -/
theorem stepKeepsInvariant : Obligations.StepKeepsInvariant := by
  intro s t hs h
  obtain ⟨-, rfl⟩ | ⟨-, c, hc, rfl⟩ | ⟨hrun, i, hpc, -, hi⟩ := step_answers h
  · exact hs
  · exact hs.raiseFault (detailListed_of_fetchDecode hs.pcInRange hc)
  · exact hi.inv hs hrun hpc

/-- Settles O3: `stopped_cases` for what enters an end state, `core_run_stopped` for what leaves it. -/
theorem statusTransitions : Obligations.StatusTransitions := by
  refine ⟨rfl, fun s t hrun hpc h => ⟨fun ht => ?_, fun hat => ?_⟩, fun s t hrun h ht => ?_,
    fun s hs => core_run_stopped hs⟩
  · obtain ⟨hat, -⟩ | ⟨c, rfl⟩ := stopped_cases hrun h (by simp [ht])
    · exact hat
    · cases ht
  · obtain rfl := Host.Outcome.next.inj ((step_hlt hrun hpc hat).symm.trans h)
    rfl
  · obtain ⟨hat, rfl⟩ | hfault := stopped_cases hrun h ht
    · exact .inl ⟨rfl, hat⟩
    · exact .inr hfault

/-- Settles O19: an end state keeps `pc`; otherwise an effect was followed by the advance, and bit 4 of the opcode byte tells
whether the instruction transfers control. -/
theorem programCounterChange : Obligations.ProgramCounterChange := by
  intro s t hrun h
  refine ⟨fun ht => pc_eq_of_stopped hrun h (by simp [ht]), fun ht => pc_eq_of_stopped hrun h (by simp [ht]),
    fun ht => ?_⟩
  obtain ⟨i, u, hpc, hat, hu, rfl⟩ := running_cases h hrun ht
  rw [← opcodeOf_instrAtPc hat, setsPc_opcodeOf]
  refine ⟨hpc, i, hat, fun hi => ?_, fun hi => ⟨?_, hi⟩, fun hi hcond => ?_⟩
  · rw [advance_pc_toNat hi (by rwa [hu.pc_eq hi]), hu.pc_eq hi, instructionLength, Nat.add_assoc]
  · rw [advance_pc_of_transfersControl u hi]
    exact hu.pc_le hi hpc
  · rw [advance_pc_of_transfersControl u hi]
    exact hu.pc_of_readsFlags hcond hpc

/-- Settles O26: a fault and HLT write no register; for an effect it is `Effect.mayWriteReg_of_ne`. -/
theorem registerWriters : Obligations.RegisterWriters := by
  intro s t r h hr
  obtain ⟨-, rfl⟩ | ⟨-, c, -, rfl⟩ | ⟨-, i, -, hat, hi⟩ := step_answers h
  · exact absurd rfl hr
  · exact absurd rfl hr
  · refine ⟨i, hat, ?_⟩
    cases hi with
    | halt | fault => exact absurd rfl hr
    | done hu => exact hu.mayWriteReg_of_ne r (advance_regs i _ ▸ hr)

/-- Settles O28, by `exec_agree`, whose condition on the flags is about the conditional jumps only. -/
theorem flagsReadOnlyByJumps : Obligations.FlagsReadOnlyByJumps := by
  intro i s t f hi h
  obtain ⟨t', g, ht, ht', -⟩ := exec_agree (s := s) (f := f) fun hreads : readsFlags i = true => by simp [hi] at hreads
  obtain rfl := Host.Outcome.next.inj (ht.symm.trans h)
  exact ⟨t'.setFl g, ht', rfl⟩

/-- Settles O29, by `step_agree`: the new flags are the same in both runs, or the old ones of each. -/
theorem highFlagBitsUnread : Obligations.HighFlagBitsUnread := by
  intro s t f hlow h
  obtain ⟨t', g, ht, ht', hg⟩ := step_agree hlow
  obtain rfl := Host.Outcome.next.inj (ht.symm.trans h)
  refine ⟨t'.setFl g, ht', rfl, fun k hk => ?_⟩
  obtain rfl | ⟨rfl, hfl⟩ := hg
  · rfl
  · rw [hfl]
    exact hlow k hk

/-- Settles O1. -/
theorem resetState : Obligations.ResetState :=
  ⟨by decide, rfl, rfl, rfl, rfl, rfl, fun _ => rfl, rfl⟩

/-- Settles O5: reset records no fault and has empty memory. -/
theorem resetMeetsInvariant : Obligations.ResetMeetsInvariant :=
  inv_of_fault_none rfl (by decide) (by decide) rfl

end Sys2Proof.Safety

/-! Proofs of the family 20_memory.md: the checked accesses, the uniqueness of the canonical form, which cell an instruction
stores to, and what the next fetch sees. -/

namespace Sys2Proof.Machine

/-! ## One canonical list for each content -/

theorem Memory.risingFrom_cons {low k : Nat} {v : Byte} {rest : Memory} :
    Memory.risingFrom low ((k, v) :: rest) = true ↔ low ≤ k ∧ Memory.risingFrom (k + 1) rest = true := by
  simp [Memory.risingFrom]

theorem Memory.get_cons_self (k : Nat) (v : Byte) (rest : Memory) : Memory.get ((k, v) :: rest) k = v := if_pos rfl

theorem Memory.get_cons_ne {k x : Nat} (v : Byte) (rest : Memory) (h : k ≠ x) :
    Memory.get ((k, v) :: rest) x = rest.get x := if_neg h

/-- Below its first address a rising list reads as 0. -/
theorem Memory.get_eq_zero_of_lt {m : Memory} {low x : Nat} (hm : Memory.risingFrom low m = true) (hx : x < low) :
    m.get x = 0#8 := by
  induction m generalizing low with
  | nil => rfl
  | cons head rest ih =>
    obtain ⟨k, v⟩ := head
    obtain ⟨hlow, hrest⟩ := Memory.risingFrom_cons.mp hm
    rw [Memory.get_cons_ne v rest (by omega), ih hrest (by omega)]

/-- The first address of a rising list is the smallest that does not read as 0. -/
theorem Memory.head_le_of_get_ne_zero {k x : Nat} {v : Byte} {rest : Memory}
    (hrest : Memory.risingFrom (k + 1) rest = true) (hx : Memory.get ((k, v) :: rest) x ≠ 0#8) : k ≤ x := by
  by_contra hlt
  exact hx (Memory.get_eq_zero_of_lt (Memory.risingFrom_cons.mpr ⟨le_rfl, hrest⟩) (by omega))

/-- Two rising lists without an entry 0 that read alike are equal: each head is the smallest address that does not read as
0, so the heads agree, and then the rests read alike. -/
theorem Memory.eq_of_get_eq {m m' : Memory} {low low' : Nat} (hm : Memory.risingFrom low m = true)
    (hm' : Memory.risingFrom low' m' = true) (hne : ∀ cell ∈ m, cell.2 ≠ 0#8) (hne' : ∀ cell ∈ m', cell.2 ≠ 0#8)
    (h : ∀ addr, m.get addr = m'.get addr) : m = m' := by
  induction m generalizing m' low low' with
  | nil =>
    cases m' with
    | nil => rfl
    | cons head' rest' => exact absurd ((h head'.1).trans (Memory.get_cons_self ..)).symm (hne' _ List.mem_cons_self)
  | cons head rest ih =>
    cases m' with
    | nil => exact absurd ((Memory.get_cons_self ..).symm.trans (h head.1)) (hne _ List.mem_cons_self)
    | cons head' rest' =>
      obtain ⟨k, v⟩ := head
      obtain ⟨k', v'⟩ := head'
      obtain ⟨hv, hnz⟩ := List.forall_mem_cons.mp hne
      obtain ⟨hv', hnz'⟩ := List.forall_mem_cons.mp hne'
      have hrest := (Memory.risingFrom_cons.mp hm).2
      have hrest' := (Memory.risingFrom_cons.mp hm').2
      have hk : k = k' := le_antisymm
        (Memory.head_le_of_get_ne_zero hrest (by rwa [h, Memory.get_cons_self]))
        (Memory.head_le_of_get_ne_zero hrest' (by rwa [← h, Memory.get_cons_self]))
      subst hk
      have hval : v = v' := by simpa only [Memory.get_cons_self] using h k
      have hget (x : Nat) : Memory.get rest x = Memory.get rest' x := by
        by_cases hx : k = x
        · rw [Memory.get_eq_zero_of_lt hrest (by omega), Memory.get_eq_zero_of_lt hrest' (by omega)]
        · simpa only [Memory.get_cons_ne _ _ hx] using h x
      rw [hval, ih hrest hrest' hnz hnz' hget]

theorem Memory.risingFrom_of_wf {m : Memory} (hm : m.wf = true) : Memory.risingFrom 0 m = true :=
  (Bool.and_eq_true_iff.mp hm).1

theorem Memory.ne_zero_of_wf {m : Memory} (hm : m.wf = true) : ∀ cell ∈ m, cell.2 ≠ 0#8 := by
  simp only [Memory.wf, Bool.and_eq_true, List.all_eq_true, bne_iff_ne] at hm
  exact fun cell hc => (hm.2 cell hc).2

end Sys2Proof.Machine

namespace Sys2Proof.Safety

open Sys2Proof.Machine

/-! ## Which cell an instruction stores to -/

section

variable {i : Instr} {a b : Byte} {s t : State}

/-- The default advance of an instruction of three bytes. -/
theorem advance_of_length_three (s : State) (hcontrol : transfersControl i = false)
    (hlen : instructionLength (opcodeOf i) = 3) : advance i s = s.setPc (s.pc + 3) := by
  rw [advance_default i s (by rw [setsPc_opcodeOf, hcontrol]), hlen]
  rfl

/-- An ST with valid registers stores `x[b]` at `x[a]` and advances (40_data_move.md R72). -/
theorem exec_st (s : State) (ha : a.toNat < 8) (hb : b.toNat < 8) :
    exec (.st a b) s =
      .next { s with pc := s.pc + 3, mem := s.mem.put s.regs[a.toNat].toNat s.regs[b.toNat] } := by
  change execSt a b s = _
  rw [execSt, onRegs_ok _ _ _ ha hb, memWrite_byte]
  have hlen : instructionLength (opcodeOf (.st a b)) = 3 := show instructionLength 0x84 = 3 by decide
  exact congrArg Host.Outcome.next (advance_of_length_three _ rfl hlen)

theorem operandValue_of_lt (s : State) (ha : a.toNat < 8) : operandValue s a = some s.regs[a.toNat] :=
  Vector.getElem?_eq_getElem ha

/-- `t` has the memory of `s`, but for at most the cell that the instruction stores to. -/
def ChangesOnlyStored (i : Instr) (s t : State) : Prop :=
  t.mem = s.mem ∨ ∃ addr v : Byte, storeAddress i s = some addr ∧ t.mem = s.mem.put addr.toNat v

theorem execSt_changesOnlyStored (h : exec (.st a b) s = .next t) : ChangesOnlyStored (.st a b) s t := by
  obtain ⟨ha, hb, -⟩ | ⟨c, -, rfl⟩ := onRegs_cases h
  · obtain rfl := Host.Outcome.next.inj ((exec_st s ha hb).symm.trans h)
    exact .inr ⟨_, _, operandValue_of_lt s ha, rfl⟩
  · exact .inl rfl

/-- A push stores at `sp` after the decrement. -/
theorem decSp_sp (s : State) : (decSp s).sp = s.sp - 1 := State.reg_setReg_self ..

/-- Only the cell that ST, PUSH or CALL stores to can change (20_memory.md R33). -/
theorem exec_changesOnlyStored (h : exec i s = .next t) : ChangesOnlyStored i s t := by
  cases exec_answers h with
  | halt | fault => exact .inl rfl
  | done hu =>
    cases hu with
    | st => exact execSt_changesOnlyStored h
    | push v | call v _ => exact .inr ⟨s.sp - 1, v, congrArg some (decSp_sp s), advance_mem _ _⟩
    | nop | write | cmp | prn | pra | pop | ret | iret | jump | fallThrough => exact .inl (advance_mem _ _)

end

/-- Three bytes further on the program counter does not wrap below address 254. -/
theorem pc_add_three_toNat {p : PcWord} (hp : p.toNat ≤ 253) : (p + 3).toNat = p.toNat + 3 := by
  bv_omega

/-! ## The obligations -/

/-- Settles O8: `Memory.get_put` on the cell written and on the others. -/
theorem memoryAccess : Obligations.MemoryAccess := by
  intro s addr v
  refine ⟨fun haddr => ?_, fun haddr => ⟨memRead_error s haddr, memWrite_error v s haddr⟩⟩
  have hlt : addr < 256 := by omega
  refine ⟨memRead_ok s hlt, _, memWrite_ok v s hlt, rfl, fun x => Memory.get_put _ _ _ _, ?_⟩
  rw [memRead_ok _ hlt, Memory.get_put, if_pos rfl]

/-- Settles O9, by `Memory.eq_of_get_eq`. -/
theorem memoryCanonical : Obligations.MemoryCanonical := fun _ _ hm hm' h =>
  Memory.eq_of_get_eq (Memory.risingFrom_of_wf hm) (Memory.risingFrom_of_wf hm') (Memory.ne_zero_of_wf hm)
    (Memory.ne_zero_of_wf hm') h

/-- Settles O10, by `exec_changesOnlyStored` and `Memory.get_put`. -/
theorem onlyStoresChangeMemory : Obligations.OnlyStoresChangeMemory := by
  intro i s t h
  obtain hmem | ⟨addr, v, haddr, hmem⟩ := exec_changesOnlyStored h
  · exact ⟨fun _ _ x _ => by rw [hmem], fun _ x => by rw [hmem]⟩
  · refine ⟨fun addr' haddr' x hx => ?_, fun hnone => ?_⟩
    · obtain rfl := Option.some.inj (haddr.symm.trans haddr')
      rw [hmem, Memory.get_put, if_neg hx]
    · cases haddr.symm.trans hnone

/-- Settles O11: the fetch after the ST is at `pc + 3`, at most 253, and reads the memory that the ST wrote. -/
theorem fetchSeesStore : Obligations.FetchSeesStore := by
  intro a b s t ha hb hpc h
  obtain rfl := Host.Outcome.next.inj ((exec_st s ha hb).symm.trans h)
  have hnext : (s.pc + 3).toNat = s.pc.toNat + 3 := pc_add_three_toNat (by omega)
  refine ⟨_, fetch_ok _ (by rw [hnext]; omega), ?_⟩
  simp only [hnext, Memory.get_put, byteAtPc, Nat.add_assoc, Nat.reduceAdd, eq_comm, and_self]

end Sys2Proof.Safety

/-! Proofs of the family 30_encoding.md: the opcode map row by row, which gives both round trips of the encoding; the cycle
up to dispatch; and the operand check, with what every instruction that passes it does to the status. -/

namespace Sys2Proof

/-! ## The opcode map -/

/-- No two rows of the opcode map have the same opcode (30_encoding.md R59). -/
theorem opcodeTable_row_unique {row row' : OpcodeRow} (h : row ∈ opcodeTable) (h' : row' ∈ opcodeTable)
    (hop : row.opcode = row'.opcode) : row = row' :=
  List.inj_on_of_nodup_map (f := OpcodeRow.opcode) (by decide) h h' hop

/-- The opcode bytes of the map, in the order of 30_encoding.md R59. -/
theorem opcodeTable_bytes : opcodeTable.map (fun row => row.opcode.toNat) =
    [0x00, 0x01, 0x11, 0x13, 0x45, 0x46, 0x47, 0x48, 0x50, 0x54, 0x55, 0x56, 0x57, 0x58, 0x59,
      0x5A, 0x65, 0x66, 0x69, 0x82, 0x83, 0x84, 0xA0, 0xA1, 0xA2, 0xA3, 0xA4, 0xA7, 0xA8, 0xAA, 0xAB, 0xAC, 0xAD, 0xAE] :=
  rfl

/-- The lookup finds every row by its opcode, and nothing else. -/
theorem lookupOpcode_eq_some_iff {opcode : Byte} {shape : Shape} :
    lookupOpcode opcode = some shape ↔ ⟨opcode, shape⟩ ∈ opcodeTable := by
  unfold lookupOpcode
  constructor
  · intro h
    obtain ⟨row, hrow, rfl⟩ := Option.map_eq_some_iff.mp h
    obtain rfl : row.opcode = opcode := by simpa using List.find?_some hrow
    exact List.mem_of_find?_eq_some hrow
  · intro h
    obtain ⟨row, hrow⟩ := Option.isSome_iff_exists.mp
      (List.find?_isSome (p := fun r : OpcodeRow => r.opcode == opcode).mpr ⟨_, h, beq_self_eq_true opcode⟩)
    have hop : row.opcode = opcode := by simpa using List.find?_some hrow
    rw [hrow, opcodeTable_row_unique (List.mem_of_find?_eq_some hrow) h hop]
    rfl

/-- The lookup fails exactly for the bytes that no row has as its opcode. -/
theorem lookupOpcode_eq_none_iff {opcode : Byte} :
    lookupOpcode opcode = none ↔ ∀ row ∈ opcodeTable, row.opcode ≠ opcode := by
  simp [lookupOpcode]

theorem decode_of_lookupOpcode {opcode : Byte} {shape : Shape} (a b : Byte) (h : lookupOpcode opcode = some shape) :
    decode opcode a b = .ok (shape.build a b) := by
  simp [decode, h]

theorem decode_of_lookupOpcode_eq_none {opcode : Byte} (a b : Byte) (h : lookupOpcode opcode = none) :
    decode opcode a b = .error (.noHandler opcode) := by
  simp [decode, h]

/-- Three bytes decode to what the row of the first builds of the other two. -/
theorem decode_eq_ok_iff {opcode a b : Byte} {i : Instr} :
    decode opcode a b = .ok i ↔ ∃ shape, ⟨opcode, shape⟩ ∈ opcodeTable ∧ shape.build a b = i := by
  constructor
  · intro h
    cases hshape : lookupOpcode opcode with
    | none => cases (decode_of_lookupOpcode_eq_none a b hshape).symm.trans h
    | some shape =>
      exact ⟨shape, lookupOpcode_eq_some_iff.mp hshape,
        Except.ok.inj ((decode_of_lookupOpcode a b hshape).symm.trans h)⟩
  · rintro ⟨shape, hrow, rfl⟩
    exact decode_of_lookupOpcode a b (lookupOpcode_eq_some_iff.mpr hrow)

/-- Bits 7:6 of a row's opcode are the number of operand bytes of its format (30_encoding.md R53, R55). -/
theorem operandCount_of_mem : ∀ row ∈ opcodeTable, operandCount row.opcode = row.shape.operandBytes := by
  decide

/-- What a row builds has the operand bytes it was built of, as many as the format has. -/
theorem operandBytes_build_of_mem {row : OpcodeRow} (h : row ∈ opcodeTable) (a b : Byte) :
    operandBytes (row.shape.build a b) = [a, b].take row.shape.operandBytes := by
  revert row
  simp [opcodeTable, Shape.build, Shape.operandBytes, operandBytes]

/-- Every instruction is built by the row of its opcode. -/
theorem exists_row_build (i : Instr) : ∃ row ∈ opcodeTable, ∃ a b, row.shape.build a b = i := by
  have hrow {shape : Shape} : lookupOpcode (opcodeOf i) = some shape → ⟨opcodeOf i, shape⟩ ∈ opcodeTable :=
    lookupOpcode_eq_some_iff.mp
  cases i with
  | nop | hlt | ret | iret => exact ⟨_, hrow rfl, 0, 0, rfl⟩
  | push a | pop a | prn a | pra a | call a | jmp a | jeq a | jne a | jgt a | jlt a | jle a | jge a | inc a | dec a
  | not a => exact ⟨_, hrow rfl, a, 0, rfl⟩
  | ld a b | st a b | add a b | sub a b | mul a b | div a b | mod a b | cmp a b | and a b | or a b | xor a b | shl a b
  | shr a b | ldi a b | addi a b => exact ⟨_, hrow rfl, a, b, rfl⟩

theorem Instr.wf_iff {i : Instr} : i.wf = true ↔ ∀ b ∈ i.regOperands, b.toNat < 8 := by
  simp [Instr.wf, namesRegister]

end Sys2Proof

namespace Sys2Proof.Safety

open Sys2Proof.Machine

/-- The encoding of what a row builds: the opcode and the operand bytes of the format. -/
theorem encode_build_of_mem {row : OpcodeRow} (h : row ∈ opcodeTable) (a b : Byte) :
    encode (row.shape.build a b) = row.opcode :: [a, b].take row.shape.operandBytes := by
  rw [encode, opcodeOf_build_of_mem h, operandBytes_build_of_mem h]

/-- A row's instruction decodes from its encoding: the lookup is by the opcode, and each format ignores the bytes beyond its
operands. -/
theorem decodeBytes_encode_build {row : OpcodeRow} (h : row ∈ opcodeTable) (a b junk junk' : Byte) (rest : List Byte) :
    decodeBytes (encode (row.shape.build a b) ++ junk :: junk' :: rest) = .ok (row.shape.build a b) := by
  have hdecode (x y : Byte) : decode row.opcode x y = .ok (row.shape.build x y) :=
    decode_eq_ok_iff.mpr ⟨row.shape, h, rfl⟩
  rw [encode_build_of_mem h]
  cases hshape : row.shape with
  | f0 i => exact (hdecode junk junk').trans (by rw [hshape]; rfl)
  | f1R mk => exact (hdecode a junk).trans (by rw [hshape]; rfl)
  | f2RR mk | f2RI mk => exact (hdecode a b).trans (by rw [hshape])

/-! ## The cycle up to dispatch -/

/-- From address 254 on the cycle ends in the fetch fault (30_encoding.md R54). -/
theorem fetchFaultsAtTop : FetchFaultsAtTop := by
  intro s hrun hlow hhigh
  rw [step_fault hrun (fetchDecode_outside hlow), Nat.max_eq_left hhigh]
  rfl

/-- An opcode without a row ends the cycle in DecodeError (30_encoding.md R56, R61). -/
theorem step_of_lookupOpcode_eq_none {s : State} (hrun : s.status = .running) (hpc : s.pc.toNat ≤ 253)
    (h : lookupOpcode (byteAtPc s 0) = none) : step s = .next (faultEntry (.decodeError (byteAtPc s 0)) s) :=
  step_fault hrun (fetchDecode_reject hpc (decode_of_lookupOpcode_eq_none _ _ h))

/-! ## The operand check -/

section

variable {i : Instr} {a b c : Byte} {s : State} {pre post : List Byte}

/-- An invalid operand of a format with one register (30_encoding.md R57). -/
theorem onReg_invalid {handler : RegIndex → Except FaultCause State} (h : [a] = pre ++ c :: post) (hc : 8 ≤ c.toNat) :
    onReg i a s handler = .next (faultEntry (.outOfRangeAccess .reg c.toNat) s) := by
  cases pre with
  | nil =>
    obtain ⟨rfl, -⟩ := List.cons.inj h
    exact onReg_error i s handler hc
  | cons p pre => simp at h

/-- The first invalid operand of a format with two registers (30_encoding.md R57). -/
theorem onRegs_invalid {handler : RegIndex → RegIndex → Except FaultCause State} (h : [a, b] = pre ++ c :: post)
    (hpre : ∀ p ∈ pre, p.toNat < 8) (hc : 8 ≤ c.toNat) :
    onRegs i a b s handler = .next (faultEntry (.outOfRangeAccess .reg c.toNat) s) := by
  cases pre with
  | nil =>
    obtain ⟨rfl, -⟩ := List.cons.inj h
    exact onRegs_error_a i b s handler hc
  | cons p pre =>
    obtain ⟨rfl, hrest⟩ := List.cons.inj h
    cases pre with
    | nil =>
      obtain ⟨rfl, -⟩ := List.cons.inj hrest
      exact onRegs_error_b i s handler (hpre a List.mem_cons_self) hc
    | cons q pre => simp at h

/-! ## What passes the operand check completes -/

/-- The answer is a next state with the status and the fault record of `s`. -/
def Completes (s : State) (r : Result) : Prop := ∃ t, r = .next t ∧ t.status = s.status ∧ t.fault = s.fault

/-- The handler does not fault, and leaves the status and the fault record as they are. -/
def HandlerCompletes (s : State) (r : Except FaultCause State) : Prop :=
  ∃ u, r = .ok u ∧ u.status = s.status ∧ u.fault = s.fault

theorem retire_completes {r : Except FaultCause State} (hr : HandlerCompletes s r) : Completes s (retire i s r) := by
  obtain ⟨u, rfl, hstatus, hfault⟩ := hr
  exact ⟨advance i u, rfl, (advance_status i u).trans hstatus, (advance_fault i u).trans hfault⟩

theorem onReg_completes {handler : RegIndex → Except FaultCause State} (hreg : ∀ c ∈ [a], c.toNat < 8)
    (hh : ∀ ha : a.toNat < 8, HandlerCompletes s (handler ⟨a.toNat, ha⟩)) : Completes s (onReg i a s handler) := by
  have ha : a.toNat < 8 := hreg a (by simp)
  rw [onReg_ok i s handler ha]
  exact retire_completes (hh ha)

theorem onRegs_completes {handler : RegIndex → RegIndex → Except FaultCause State} (hreg : ∀ c ∈ [a, b], c.toNat < 8)
    (hh : ∀ (ha : a.toNat < 8) (hb : b.toNat < 8), HandlerCompletes s (handler ⟨a.toNat, ha⟩ ⟨b.toNat, hb⟩)) :
    Completes s (onRegs i a b s handler) := by
  have ha : a.toNat < 8 := hreg a (by simp)
  have hb : b.toNat < 8 := hreg b (by simp)
  rw [onRegs_ok i s handler ha hb]
  exact retire_completes (hh ha hb)

/-- A valid divisor register holds no 0 where the instruction does not divide by zero. -/
theorem reg_ne_zero_of_dividesByZero_eq_false (hb : b.toNat < 8) (hi : divisorOperand i = some b)
    (h : dividesByZero i s = false) : s.reg ⟨b.toNat, hb⟩ ≠ 0#8 := by
  simpa [dividesByZero, hi, operandValue_of_lt s hb, State.reg] using h

theorem divideRegs_completes {f : Byte → Byte → Byte} (hreg : ∀ c ∈ [a, b], c.toNat < 8)
    (hi : divisorOperand i = some b) (h : dividesByZero i s = false) : Completes s (divideRegs i a b f s) :=
  onRegs_completes hreg fun _ hb => ⟨_, if_neg (reg_ne_zero_of_dividesByZero_eq_false hb hi h), rfl, rfl⟩

theorem execIret_completes (s : State) : Completes s (execIret s) := by
  obtain ⟨_, _, _, _, _, _, _, _, _, _, _, hpops⟩ := iretPops_exist s
  obtain ⟨regs, rfl⟩ := iretPops_writesRegs hpops
  exact ⟨_, execIret_of_pops hpops, rfl, rfl⟩

/-- Every instruction but HLT that passes the operand check and does not divide by zero completes. -/
theorem exec_completes (hwf : i.wf = true) (hdiv : dividesByZero i s = false) (hhlt : i ≠ .hlt) :
    Completes s (exec i s) := by
  have hreg := Instr.wf_iff.mp hwf
  cases i with
  | hlt => exact absurd rfl hhlt
  | nop => exact retire_completes (r := .ok s) ⟨_, rfl, rfl, rfl⟩
  | ret => exact retire_completes (by rw [pop_eq]; exact ⟨_, rfl, rfl, rfl⟩)
  | iret => exact execIret_completes s
  | push a => exact onReg_completes hreg fun _ => ⟨_, push_eq _ s, rfl, rfl⟩
  | pop a => exact onReg_completes hreg fun _ => by rw [memRead_byte]; exact ⟨_, rfl, rfl, rfl⟩
  | call a => exact onReg_completes hreg fun _ => by rw [push_eq]; exact ⟨_, rfl, rfl, rfl⟩
  | prn a | pra a | jmp a | jeq a | jne a | jgt a | jlt a | jle a | jge a | inc a | dec a | not a | ldi a _ | addi a _ =>
    exact onReg_completes hreg fun _ => ⟨_, rfl, rfl, rfl⟩
  | ld a b => exact onRegs_completes hreg fun _ _ => by rw [memRead_byte]; exact ⟨_, rfl, rfl, rfl⟩
  | st a b => exact onRegs_completes hreg fun _ _ => ⟨_, memWrite_byte _ _ s, rfl, rfl⟩
  | add a b | sub a b | mul a b | cmp a b | and a b | or a b | xor a b | shl a b | shr a b =>
    exact onRegs_completes hreg fun _ _ => ⟨_, rfl, rfl, rfl⟩
  | div a b | mod a b => exact divideRegs_completes hreg rfl hdiv

end

/-! ## The obligations -/

/-- Settles O13: every instruction is built by a row, and `decodeBytes_encode_build` holds of every row. -/
theorem decodeEncodeRoundTrip : Obligations.DecodeEncodeRoundTrip := by
  intro i junk junk' rest
  obtain ⟨row, hrow, a, b, rfl⟩ := exists_row_build i
  exact decodeBytes_encode_build hrow a b junk junk' rest

/-- Settles O14: the instruction is built by the opcode's row, whose format has the length that bits 7:6 give. -/
theorem encodeDecodeRoundTrip : Obligations.EncodeDecodeRoundTrip := by
  intro opcode a b i h
  obtain ⟨shape, hrow, rfl⟩ := decode_eq_ok_iff.mp h
  rw [encode_build_of_mem hrow, instructionLength, operandCount_of_mem _ hrow, List.take_succ_cons]

/-- Settles O15: a byte outside the list has no row; the counts are evaluated over the 256 bytes. -/
theorem illegalOpcodesFault : Obligations.IllegalOpcodesFault := by
  refine ⟨fun s hrun hpc hbyte => ?_, by decide, fun opcode hopcode a b => ?_, fetchFaultsAtTop⟩
  · refine step_of_lookupOpcode_eq_none hrun hpc (lookupOpcode_eq_none_iff.mpr fun row hrow hop => hbyte ?_)
    rw [← opcodeTable_bytes, ← hop]
    exact List.mem_map_of_mem hrow
  · obtain ⟨shape, hshape⟩ := Option.ne_none_iff_exists'.mp hopcode
    exact ⟨_, decode_of_lookupOpcode a b hshape⟩

/-- Settles O18. -/
theorem fetchReadsThreeBytes : Obligations.FetchReadsThreeBytes :=
  ⟨fun s hpc => fetch_ok s hpc, fun s hlow hhigh => Nat.max_eq_left hhigh ▸ fetch_error s hlow, fetchFaultsAtTop⟩

/-- Settles O20: the split of the operands puts the invalid one first or second, by the number of registers in the format. -/
theorem operandCheck : Obligations.OperandCheck := by
  intro i s pre post c h hpre hc
  cases i with
  | nop | hlt | ret | iret => simp [Instr.regOperands] at h
  | push a | pop a | prn a | pra a | call a | jmp a | jeq a | jne a | jgt a | jlt a | jle a | jge a | inc a | dec a
  | not a | ldi a _ | addi a _ => exact onReg_invalid h hc
  | ld a b | st a b | add a b | sub a b | mul a b | div a b | mod a b | cmp a b | and a b | or a b | xor a b | shl a b
  | shr a b => exact onRegs_invalid h hpre hc

/-- Settles O21: HLT halts, and for the others it is `exec_completes`. -/
theorem wellFormedCompletes : Obligations.WellFormedCompletes := by
  intro i s hwf hrun hdiv
  by_cases hhlt : i = .hlt
  · subst hhlt
    exact ⟨s.setStatus .halted, rfl, rfl, rfl⟩
  · rw [if_neg hhlt, ← hrun]
    exact exec_completes hwf hdiv hhlt

/-- Settles O16: bits 7:6 of a row's opcode count the operand bytes of its format. -/
theorem opcodeBitsMatchFormat : Obligations.OpcodeBitsMatchFormat := by
  refine fun i => ⟨?_, setsPc_opcodeOf i⟩
  obtain ⟨row, hrow, a, b, rfl⟩ := exists_row_build i
  rw [opcodeOf_build_of_mem hrow, operandBytes_build_of_mem hrow, operandCount_of_mem _ hrow]
  cases row.shape <;> rfl

/-- Settles O17. -/
theorem stepRunsDecoded : Obligations.StepRunsDecoded := fun _ _ hrun hpc hi =>
  step_dispatch hrun (fetchDecode_ok hpc hi)

end Sys2Proof.Safety

/-! Proofs of the family 40_data_move.md: the Encoding and Faults lines of the formats with two operand bytes, from the
opcode map and the operand check; and what LDI and LD answer, as `exec_st` says it of ST. -/

namespace Sys2Proof.Safety

open Sys2Proof.Machine

/-! ## Encoding and Faults lines of a format -/

section

variable {opcode : Byte} {mk : Byte → Byte → Instr}

/-- A row of format F2RR whose instructions have both operand bytes checked (30_encoding.md R53, R57). -/
theorem checkedRR_of_lookupOpcode (hrow : lookupOpcode opcode = some (.f2RR mk))
    (hregs : ∀ a b, (mk a b).regOperands = [a, b]) : CheckedRR opcode mk := fun a b =>
  ⟨decode_of_lookupOpcode a b hrow, fun s =>
    ⟨fun ha => operandCheck _ s [] [b] a (hregs a b) (by simp) ha,
      fun ha hb => operandCheck _ s [a] [] b (hregs a b) (by simpa using ha) hb⟩⟩

/-- A row of format F2RI whose instructions have the first operand byte checked (30_encoding.md R53, R57). -/
theorem checkedRI_of_lookupOpcode (hrow : lookupOpcode opcode = some (.f2RI mk))
    (hregs : ∀ a imm, (mk a imm).regOperands = [a]) : CheckedRI opcode mk := fun a imm =>
  ⟨decode_of_lookupOpcode a imm hrow, fun s ha => operandCheck _ s [] [] a (hregs a imm) (by simp) ha⟩

end

/-! ## Loads -/

section

variable {i : Instr} {a b : Byte}

/-- An instruction with two operand bytes is three bytes long (30_encoding.md R50, R55). -/
theorem instructionLength_of_two_operandBytes {x y : Byte} (hop : operandBytes i = [x, y]) :
    instructionLength (opcodeOf i) = 3 := by
  rw [instructionLength, (opcodeBitsMatchFormat i).1, hop]
  rfl

/-- The end of a cycle of three bytes whose handler wrote one register. -/
theorem retire_setReg_of_two_operandBytes {x y : Byte} (s : State) (ha : a.toNat < 8) (v : Byte)
    (hcontrol : transfersControl i = false) (hop : operandBytes i = [x, y]) :
    retire i s (.ok (s.setReg ⟨a.toNat, ha⟩ v)) = .next { s with regs := s.regs.set a.toNat v, pc := s.pc + 3 } :=
  congrArg Host.Outcome.next (advance_of_length_three _ hcontrol (instructionLength_of_two_operandBytes hop))

/-- An LDI with a valid register writes the immediate and advances (40_data_move.md R70). -/
theorem exec_ldi (imm : Byte) (s : State) (ha : a.toNat < 8) :
    exec (.ldi a imm) s = .next { s with regs := s.regs.set a.toNat imm, pc := s.pc + 3 } := by
  change execLdi a imm s = _
  rw [execLdi, onReg_ok _ _ _ ha]
  exact retire_setReg_of_two_operandBytes s ha imm rfl rfl

/-- An LD with valid registers writes the cell at the old `x[b]` and advances (40_data_move.md R71). -/
theorem exec_ld (s : State) (ha : a.toNat < 8) (hb : b.toNat < 8) :
    exec (.ld a b) s =
      .next { s with regs := s.regs.set a.toNat (s.mem.get s.regs[b.toNat].toNat), pc := s.pc + 3 } := by
  change execLd a b s = _
  rw [execLd, onRegs_ok _ _ _ ha hb, memRead_byte]
  exact retire_setReg_of_two_operandBytes s ha _ rfl rfl

end

/-! ## The obligations -/

/-- Settles O35: the encoding and the faults are those of format F2RR, the store is `exec_st`, read by `Memory.get_put`. -/
theorem stRule : Obligations.StRule :=
  ⟨checkedRR_of_lookupOpcode rfl fun _ _ => rfl, fun _ _ s ha hb =>
    ⟨_, exec_st s ha hb, rfl, fun x => Memory.get_put _ _ x _⟩⟩

/-- Settles O33: the encoding and the faults are those of format F2RI, the effect is `exec_ldi`. -/
theorem ldiRule : Obligations.LdiRule :=
  ⟨checkedRI_of_lookupOpcode rfl fun _ _ => rfl, fun _ imm s ha => exec_ldi imm s ha⟩

/-- Settles O34: the encoding and the faults are those of format F2RR, the effect is `exec_ld`. -/
theorem ldRule : Obligations.LdRule :=
  ⟨checkedRR_of_lookupOpcode rfl fun _ _ => rfl, fun _ _ s ha hb => exec_ld s ha hb⟩

end Sys2Proof.Safety

/-! Proofs of the family 41_stack.md: the Encoding and Faults lines and the default advance of the formats with one operand
byte, as the family 40_data_move.md has them for two; what PUSH and POP answer, register 7 included; and that a POP undoes
the PUSH before it. -/

namespace Sys2Proof.Safety

open Sys2Proof.Machine

/-! ## Formats with one operand byte -/

/-- A row of format F1R whose instructions have the operand byte checked (30_encoding.md R53, R57). -/
theorem checkedR_of_lookupOpcode {opcode : Byte} {mk : Byte → Instr} (hrow : lookupOpcode opcode = some (.f1R mk))
    (hregs : ∀ a, (mk a).regOperands = [a]) : CheckedR opcode mk := fun a =>
  ⟨fun junk => decode_of_lookupOpcode a junk hrow, fun s ha => operandCheck _ s [] [] a (hregs a) (by simp) ha⟩

/-- The default advance of an instruction with one operand byte is by two (30_encoding.md R50, R58). -/
theorem advance_of_one_operandByte {i : Instr} {x : Byte} (s : State) (hcontrol : transfersControl i = false)
    (hop : operandBytes i = [x]) : advance i s = s.setPc (s.pc + 2) := by
  have hlen : instructionLength (opcodeOf i) = 2 := by
    rw [instructionLength, (opcodeBitsMatchFormat i).1, hop]
    rfl
  rw [advance_default i s (by rw [setsPc_opcodeOf, hcontrol]), hlen]
  rfl

/-! ## PUSH and POP -/

section

variable {a : Byte}

/-- A PUSH with a valid register stores `x[a]`, read after the decrement, at the decremented `sp`, and advances
(41_stack.md R81). -/
theorem exec_push (s : State) (ha : a.toNat < 8) :
    exec (.push a) s = .next { s with
      regs := s.regs.set 7 (s.regs[7] - 1)
      mem := s.mem.put (s.regs[7] - 1).toNat (s.regs.set 7 (s.regs[7] - 1))[a.toNat]
      pc := s.pc + 2 } := by
  change execPush a s = _
  rw [execPush, onReg_ok _ _ _ ha, push_eq]
  exact congrArg Host.Outcome.next (advance_of_one_operandByte _ rfl rfl)

/-- A POP with a valid register loads the cell at `sp`, then increments register 7, and advances (41_stack.md R82). -/
theorem exec_pop (s : State) (ha : a.toNat < 8) :
    exec (.pop a) s = .next { s with
      regs := (s.regs.set a.toNat (s.mem.get s.regs[7].toNat)).set 7
        ((s.regs.set a.toNat (s.mem.get s.regs[7].toNat))[7] + 1)
      pc := s.pc + 2 } := by
  change execPop a s = _
  rw [execPop, onReg_ok _ _ _ ha, memRead_byte]
  exact congrArg Host.Outcome.next (advance_of_one_operandByte _ rfl rfl)

end

/-! ## The obligations -/

/-- Settles O36: `push_eq`, its store read by `Memory.get_put`, and `pop_eq`. -/
theorem stackPrimitives : Obligations.StackPrimitives :=
  ⟨fun s v => ⟨_, push_eq v s, rfl, fun x => Memory.get_put _ _ x _⟩, pop_eq⟩

/-- Settles O37: the encoding and the index fault are those of format F1R, the store is `exec_push`, read by
`Memory.get_put`. -/
theorem pushRule : Obligations.PushRule :=
  ⟨checkedR_of_lookupOpcode rfl fun _ => rfl, fetchFaultsAtTop, fun _ s ha =>
    ⟨_, exec_push s ha, rfl, fun x => Memory.get_put _ _ x _⟩⟩

/-- Settles O38: the encoding and the index fault are those of format F1R, the effect is `exec_pop`. -/
theorem popRule : Obligations.PopRule :=
  ⟨checkedR_of_lookupOpcode rfl fun _ => rfl, fetchFaultsAtTop, fun _ s ha => exec_pop s ha⟩

/-- Settles O39: the POP loads what the PUSH stored, which is the value that register `a` has held since the decrement, so
the load changes no register and only the increment of `sp` remains. No case for register 7 is needed. -/
theorem pushPopRoundTrip : Obligations.PushPopRoundTrip := by
  intro a s t u ha hpush hpop
  obtain rfl := Host.Outcome.next.inj ((exec_push s ha).symm.trans hpush)
  obtain rfl := Host.Outcome.next.inj ((exec_pop _ ha).symm.trans hpop)
  refine ⟨?_, BitVec.add_assoc s.pc 2 2, rfl⟩
  simp only [Vector.getElem_set_self, Memory.get_put, if_pos, Vector.set_getElem_self, Vector.set_set,
    BitVec.sub_add_cancel]

end Sys2Proof.Safety

/-! Proofs of the family 42_control.md: the end of a cycle whose handler wrote `pc`; what each control instruction answers, the
jumps by one lemma on `jumpIf` and IRET pop by pop; and the flags that CMP leaves, as the jumps read them. -/

namespace Sys2Proof.Safety

open Sys2Proof.Machine

/-! ## Formats and the end of a cycle -/

/-- A row of format F0 decodes whatever follows its opcode (30_encoding.md R53). -/
theorem encodedBare_of_lookupOpcode {opcode : Byte} {i : Instr} (hrow : lookupOpcode opcode = some (.f0 i)) :
    EncodedBare opcode i := fun junk junk' => decode_of_lookupOpcode junk junk' hrow

/-- The cycle of an instruction that transfers control ends in the state its handler gave (30_encoding.md R58). -/
theorem retire_ok_of_transfersControl {i : Instr} (s u : State) (h : transfersControl i = true) :
    retire i s (.ok u) = .next u :=
  congrArg Host.Outcome.next (advance_setsPc i u (by rw [setsPc_opcodeOf, h]))

/-! ## CALL and RET -/

/-- The low byte of a program counter value up to 255 is the value itself. -/
theorem returnAddress_toNat {p : PcWord} (hp : p.toNat ≤ 255) : (returnAddress p).toNat = p.toNat := by
  rw [returnAddress, BitVec.toNat_setWidth]
  exact Nat.mod_eq_of_lt (Nat.lt_succ_of_le hp)

/-- Wherever CALL can execute, the byte it pushes is `pc + 2` (42_control.md R91; log 5). -/
theorem returnAddress_pc_add_two {p : PcWord} (hp : p.toNat ≤ 253) : (returnAddress (p + 2)).toNat = p.toNat + 2 := by
  have hnext := pc_add_two_toNat hp
  rw [returnAddress_toNat (by omega), hnext]

/-- A CALL with a valid register pushes the return address, then jumps to `x[a]` as it is after the push
(42_control.md R91). -/
theorem exec_call {a : Byte} (s : State) (ha : a.toNat < 8) :
    exec (.call a) s = .next { s with
      regs := s.regs.set 7 (s.regs[7] - 1)
      mem := s.mem.put (s.regs[7] - 1).toNat (returnAddress (s.pc + 2))
      pc := target (s.regs.set 7 (s.regs[7] - 1))[a.toNat] } := by
  change execCall a s = _
  rw [execCall, onReg_ok _ _ _ ha, push_eq]
  exact retire_ok_of_transfersControl s _ rfl

/-- RET jumps to the byte at `sp` and increments `sp` (42_control.md R92). -/
theorem exec_ret (s : State) :
    exec .ret s = .next { s with
      regs := s.regs.set 7 (s.regs[7] + 1), pc := target (s.mem.get s.regs[7].toNat) } := by
  change execRet s = _
  rw [execRet, onNone, pop_eq]
  exact retire_ok_of_transfersControl s _ rfl

/-! ## Jumps -/

/-- A jump with a valid register sets `pc` to `x[a]` if it is taken, else to `pc + 2` (42_control.md R90). -/
theorem jumpIf_of_lt {i : Instr} {a : Byte} (taken : Bool) (s : State) (ha : a.toNat < 8)
    (hcontrol : transfersControl i = true) :
    jumpIf i taken a s = .next { s with pc := if taken then target s.regs[a.toNat] else s.pc + 2 } := by
  rw [jumpIf, onReg_ok _ _ _ ha]
  exact retire_ok_of_transfersControl s _ hcontrol

/-- An instruction that is `jumpIf` on a test of the flags jumps under any condition that says the same as the test. -/
theorem jumpsWhen_of_jumpIf {mk : Byte → Instr} {cond : Byte → Prop} (test : Byte → Bool)
    (hexec : ∀ a s, exec (mk a) s = jumpIf (mk a) (test s.fl) a s) (hcontrol : ∀ a, transfersControl (mk a) = true)
    (hcond : ∀ fl, cond fl ↔ test fl = true) : JumpsWhen mk cond := by
  intro a s ha
  refine ⟨_, fun htaken => ?_, fun hnot => ?_, (hexec a s).trans (jumpIf_of_lt _ s ha (hcontrol a))⟩
  · rw [if_pos ((hcond _).mp htaken), target_toNat]
  · rw [if_neg (mt (hcond _).mpr hnot)]

theorem jumpsWhen_jmp : JumpsWhen .jmp fun _ => True :=
  jumpsWhen_of_jumpIf (fun _ => true) (fun _ _ => rfl) (fun _ => rfl) (by simp)

theorem jumpsWhen_jeq : JumpsWhen .jeq fun fl => fl.getLsbD 0 = true :=
  jumpsWhen_of_jumpIf condEQ (fun _ _ => rfl) (fun _ => rfl) fun _ => Iff.rfl

theorem jumpsWhen_jne : JumpsWhen .jne fun fl => fl.getLsbD 0 = false :=
  jumpsWhen_of_jumpIf condNE (fun _ _ => rfl) (fun _ => rfl) (by simp [condNE, flagE])

theorem jumpsWhen_jgt : JumpsWhen .jgt fun fl => fl.getLsbD 1 = true :=
  jumpsWhen_of_jumpIf condGT (fun _ _ => rfl) (fun _ => rfl) fun _ => Iff.rfl

theorem jumpsWhen_jlt : JumpsWhen .jlt fun fl => fl.getLsbD 2 = true :=
  jumpsWhen_of_jumpIf condLT (fun _ _ => rfl) (fun _ => rfl) fun _ => Iff.rfl

theorem jumpsWhen_jge : JumpsWhen .jge fun fl => fl.getLsbD 0 = true ∨ fl.getLsbD 1 = true :=
  jumpsWhen_of_jumpIf condGE (fun _ _ => rfl) (fun _ => rfl) fun _ => Bool.or_eq_true_iff.symm

theorem jumpsWhen_jle : JumpsWhen .jle fun fl => fl.getLsbD 0 = true ∨ fl.getLsbD 2 = true :=
  jumpsWhen_of_jumpIf condLE (fun _ _ => rfl) (fun _ => rfl) fun _ => Bool.or_eq_true_iff.symm

/-! ## Jumps after CMP -/

/-- A CMP with valid registers writes the flags of the comparison and advances (43_alu.md R125). -/
theorem exec_cmp {a b : Byte} (s : State) (ha : a.toNat < 8) (hb : b.toNat < 8) :
    exec (.cmp a b) s =
      .next { s with fl := compareFlags s.regs[a.toNat] s.regs[b.toNat], pc := s.pc + 3 } := by
  change execCmp a b s = _
  rw [execCmp, onRegs_ok _ _ _ ha hb]
  exact congrArg Host.Outcome.next (advance_of_length_three _ rfl (instructionLength_of_two_operandBytes rfl))

section

variable (x y : Byte)

/-- CMP leaves one of three flags bytes, by the unsigned order of its operands (43_alu.md R125). -/
theorem compareFlags_cases :
    (x.toNat = y.toNat ∧ compareFlags x y = 0b001) ∨ (x.toNat > y.toNat ∧ compareFlags x y = 0b010) ∨
      (x.toNat < y.toNat ∧ compareFlags x y = 0b100) := by
  unfold compareFlags
  split
  next heq => exact .inl ⟨congrArg _ heq, rfl⟩
  next hne =>
    have hne' : x.toNat ≠ y.toNat := mt BitVec.eq_of_toNat_eq hne
    split
    next hlt => exact .inr (.inr ⟨hlt, rfl⟩)
    next hge => exact .inr (.inl ⟨lt_of_le_of_ne (Nat.not_lt.mp hge) hne'.symm, rfl⟩)

/-- What each of the three flags says after CMP: E equal, G greater, L less. -/
theorem compareFlags_bits :
    ((compareFlags x y).getLsbD 0 = true ↔ x.toNat = y.toNat) ∧
      ((compareFlags x y).getLsbD 1 = true ↔ x.toNat > y.toNat) ∧
      ((compareFlags x y).getLsbD 2 = true ↔ x.toNat < y.toNat) := by
  obtain ⟨h, hfl⟩ | ⟨h, hfl⟩ | ⟨h, hfl⟩ := compareFlags_cases x y
  · simp [hfl, h]
  · simp [hfl, h, h.ne', h.le]
  · simp [hfl, h, h.ne, h.le]

end

/-- A jump right after a CMP: its condition on the flags written there decides, and not taken it ends five bytes on. -/
theorem JumpsWhen.after_cmp {mk : Byte → Instr} {cond : Byte → Prop} {taken : Prop} {flags c : Byte}
    (h : JumpsWhen mk cond) (s : State) (hc : c.toNat < 8) (hcond : cond flags ↔ taken) :
    ∃ p : PcWord, exec (mk c) { s with fl := flags, pc := s.pc + 3 } = .next { s with fl := flags, pc := p } ∧
      (taken → p.toNat = s.regs[c.toNat].toNat) ∧ (¬ taken → p = s.pc + 5) := by
  obtain ⟨p, hjump, hfall, hexec⟩ := h c { s with fl := flags, pc := s.pc + 3 } hc
  exact ⟨p, hexec, fun ht => hjump (hcond.mpr ht), fun ht =>
    (hfall (mt hcond.mp ht)).trans (BitVec.add_assoc s.pc 3 2)⟩

/-! ## IRET -/

section

variable (s : State) (regs : Vector Byte Config.hardware.nreg) (k : Nat)

/-- The state `s` after `k` pops, with the registers `regs` but for `sp`. -/
def afterPops : State := { s with regs := regs.set 7 (s.regs[7] + BitVec.ofNat 8 k) }

/-- The byte that the pop after `k` others reads. -/
def poppedByte : Byte := s.mem.get ((s.regs[7].toNat + k) % 256)

theorem afterPops_zero : afterPops s s.regs 0 = s := by
  simp [afterPops]

theorem afterPops_sp_toNat : (afterPops s regs k).sp.toNat = (s.regs[7].toNat + k) % 256 := by
  simp [afterPops, State.sp_eq]

/-- The next pop reads the next byte. -/
theorem pop_afterPops : pop (afterPops s regs k) = .ok (poppedByte s k, afterPops s regs (k + 1)) := by
  rw [pop_eq, afterPops_sp_toNat]
  simp [afterPops, poppedByte, incSp, State.setSp, State.setReg, State.sp_eq, BitVec.add_assoc, BitVec.ofNat_add]

/-- The next pop into a register other than `sp`. -/
theorem popReg_afterPops {i : RegIndex} (hi : i.val < 7) :
    popReg i (afterPops s regs k) = .ok (afterPops s (regs.set i.val (poppedByte s k)) (k + 1)) := by
  have hcomm (v sp : Byte) : (regs.set 7 sp).set i.val v = (regs.set i.val v).set 7 sp :=
    Vector.set_comm _ _ (by omega)
  rw [popReg, pop_afterPops]
  simp [bind, Except.bind, pure, Except.pure, State.setReg, afterPops, hcomm]

end

/-- The registers that IRET leaves: every one is overwritten. -/
theorem set_all_registers (regs : Vector Byte 8) (v0 v1 v2 v3 v4 v5 v6 v7 : Byte) :
    (((((((regs.set 6 v6).set 5 v5).set 4 v4).set 3 v3).set 2 v2).set 1 v1).set 0 v0).set 7 v7 =
      #v[v0, v1, v2, v3, v4, v5, v6, v7] := by
  refine Vector.ext fun i hi => ?_
  interval_cases i <;> simp

/-- IRET pops `x[6]` to `x[0]`, then `fl`, then `pc` (42_control.md R100). -/
theorem exec_iret (s : State) :
    exec .iret s = .next { s with
      regs := #v[poppedByte s 6, poppedByte s 5, poppedByte s 4, poppedByte s 3, poppedByte s 2, poppedByte s 1,
        poppedByte s 0, s.regs[7] + 9]
      fl := poppedByte s 7
      pc := target (poppedByte s 8) } := by
  have hpops : IretPops (afterPops s s.regs 0) _ _ _ _ _ _ _ _ _ (poppedByte s 7) (poppedByte s 8) :=
    ⟨popReg_afterPops s _ 0 (by decide), popReg_afterPops s _ 1 (by decide), popReg_afterPops s _ 2 (by decide),
      popReg_afterPops s _ 3 (by decide), popReg_afterPops s _ 4 (by decide), popReg_afterPops s _ 5 (by decide),
      popReg_afterPops s _ 6 (by decide), pop_afterPops s _ 7, pop_afterPops s _ 8⟩
  rw [afterPops_zero] at hpops
  refine (execIret_of_pops hpops).trans ?_
  rw [← set_all_registers s.regs]
  rfl

/-! ## The obligations -/

/-- Settles O40: the encoding and the index fault are those of format F1R, the effect is `exec_call`, its store read by
`Memory.get_put`. -/
theorem callRule : Obligations.CallRule := by
  refine ⟨checkedR_of_lookupOpcode rfl fun _ => rfl, fun a s ha hpc =>
    ⟨_, exec_call s ha, rfl, target_toNat _, ?_, fun x hx => ?_⟩⟩
  · rw [Memory.get_put, if_pos rfl, returnAddress_pc_add_two hpc]
  · rw [Memory.get_put, if_neg hx]

/-- Settles O42: the RET reads the cell that the CALL wrote, since `sp` and that cell are unchanged, and its increment undoes
the CALL's decrement. -/
theorem callRetRoundTrip : Obligations.CallRetRoundTrip := by
  intro a s t u v ha hpc hcall hsp hcell hret
  obtain rfl := Host.Outcome.next.inj ((exec_call s ha).symm.trans hcall)
  obtain rfl := Host.Outcome.next.inj ((exec_ret u).symm.trans hret)
  have hsp' : u.regs[7] = s.regs[7] - 1 := hsp.trans (Vector.getElem_set_self _)
  simp only [Vector.getElem_set_self, Memory.get_put, if_pos] at hcell
  exact ⟨by rw [target_toNat, hsp', hcell, returnAddress_pc_add_two hpc], by rw [hsp', BitVec.sub_add_cancel]⟩

/-- Settles O44: the encodings and the index faults are those of format F1R, the jumps are `jumpIf` on the model's
conditions. -/
theorem conditionalJumps : Obligations.ConditionalJumps :=
  ⟨checkedR_of_lookupOpcode rfl fun _ => rfl, jumpsWhen_jeq, checkedR_of_lookupOpcode rfl fun _ => rfl, jumpsWhen_jgt,
    checkedR_of_lookupOpcode rfl fun _ => rfl, jumpsWhen_jlt, checkedR_of_lookupOpcode rfl fun _ => rfl, jumpsWhen_jge,
    checkedR_of_lookupOpcode rfl fun _ => rfl, jumpsWhen_jle⟩

/-- Settles O45. -/
theorem jneJumpsWhenEClear : Obligations.JneJumpsWhenEClear :=
  ⟨checkedR_of_lookupOpcode rfl fun _ => rfl, jumpsWhen_jne⟩

/-- Settles O46: CMP writes `compareFlags`, whose bits say how the operands compare; JGE and JLE ask for either of two. -/
theorem compareThenJump : Obligations.CompareThenJump := by
  intro a b c s t ha hb hc h
  obtain rfl := Host.Outcome.next.inj ((exec_cmp s ha hb).symm.trans h)
  obtain ⟨hE, hG, hL⟩ := compareFlags_bits s.regs[a.toNat] s.regs[b.toNat]
  exact ⟨jumpsWhen_jeq.after_cmp s hc hE, jumpsWhen_jgt.after_cmp s hc hG, jumpsWhen_jlt.after_cmp s hc hL,
    jumpsWhen_jne.after_cmp s hc (Bool.not_eq_true _ ▸ not_congr hE),
    jumpsWhen_jge.after_cmp s hc ((or_congr hE hG).trans (by omega)),
    jumpsWhen_jle.after_cmp s hc ((or_congr hE hL).trans (by omega))⟩

/-- Settles O47, by `exec_iret`. -/
theorem iretRule : Obligations.IretRule :=
  ⟨encodedBare_of_lookupOpcode rfl, fun s => ⟨_, target_toNat _, exec_iret s⟩⟩

/-- Settles O41, by `exec_ret`. -/
theorem retRule : Obligations.RetRule :=
  ⟨encodedBare_of_lookupOpcode rfl, fun s => ⟨_, target_toNat _, exec_ret s⟩⟩

/-- Settles O43. -/
theorem jmpRule : Obligations.JmpRule := ⟨checkedR_of_lookupOpcode rfl fun _ => rfl, jumpsWhen_jmp⟩

/-- Settles O48. -/
theorem hltRule : Obligations.HltRule := ⟨encodedBare_of_lookupOpcode rfl, fun _ => rfl⟩

/-- Settles O49: the handler does nothing, and the default advance of a bare opcode is by one. -/
theorem nopRule : Obligations.NopRule :=
  ⟨encodedBare_of_lookupOpcode rfl, fun s => congrArg Host.Outcome.next (advance_default .nop s rfl)⟩

end Sys2Proof.Safety

/-! Proofs of the family 43_alu.md: the end of a cycle for each of the three shapes of ALU instruction, `combineRegs`,
`updateReg` and `divideRegs`; from it, what each instruction computes, given what its function computes on bytes; and which
instructions change the flags. -/

namespace Sys2Proof.Safety

open Sys2Proof.Machine

/-! ## One register operand -/

/-- The end of a cycle of two bytes whose handler wrote one register. -/
theorem retire_setReg_of_one_operandByte {i : Instr} {a x : Byte} (s : State) (ha : a.toNat < 8) (v : Byte)
    (hcontrol : transfersControl i = false) (hop : operandBytes i = [x]) :
    retire i s (.ok (s.setReg ⟨a.toNat, ha⟩ v)) = .next { s with regs := s.regs.set a.toNat v, pc := s.pc + 2 } :=
  congrArg Host.Outcome.next (advance_of_one_operandByte _ hcontrol hop)

/-- An instruction that is `updateReg` on a function computes the integer function that it is modulo 256. -/
theorem computesR_of_updateReg {mk : Byte → Instr} {f : Int → Int} (g : Byte → Byte)
    (hexec : ∀ a s, exec (mk a) s = updateReg (mk a) a g s) (hcontrol : ∀ a, transfersControl (mk a) = false)
    (hop : ∀ a, operandBytes (mk a) = [a]) (hg : ∀ x, ((g x).toNat : Int) = f x.toNat % 256) : ComputesR mk f := by
  intro a s ha
  refine ⟨g s.regs[a.toNat], hg _, ?_⟩
  rw [hexec, updateReg, onReg_ok _ _ _ ha]
  exact retire_setReg_of_one_operandByte s ha _ (hcontrol a) (hop a)

/-- A difference that borrows is the exact one modulo 256. -/
theorem sub_toNat (x y : Byte) : ((x - y).toNat : Int) = ((x.toNat : Int) - y.toNat) % 256 := by
  rw [BitVec.toNat_sub]
  omega

theorem computesR_inc : ComputesR .inc fun x => x + 1 :=
  computesR_of_updateReg (fun x => x + 1) (fun _ _ => rfl) (fun _ => rfl) (fun _ => rfl) fun x => by
    rw [BitVec.toNat_add]
    rfl

theorem computesR_dec : ComputesR .dec fun x => x - 1 :=
  computesR_of_updateReg (fun x => x - 1) (fun _ _ => rfl) (fun _ => rfl) (fun _ => rfl) fun x => sub_toNat x 1

theorem computesR_not : ComputesR .not fun x => 255 - x :=
  computesR_of_updateReg (fun x => ~~~x) (fun _ _ => rfl) (fun _ => rfl) (fun _ => rfl) fun x => by
    rw [BitVec.toNat_not]
    omega

/-- An ADDI with a valid register adds the immediate and advances (43_alu.md R116). -/
theorem exec_addi {a : Byte} (imm : Byte) (s : State) (ha : a.toNat < 8) :
    exec (.addi a imm) s =
      .next { s with regs := s.regs.set a.toNat (s.regs[a.toNat] + imm), pc := s.pc + 3 } := by
  change execAddi a imm s = _
  rw [execAddi, updateReg, onReg_ok _ _ _ ha]
  exact retire_setReg_of_two_operandBytes s ha _ rfl rfl

/-! ## Two register operands -/

section

variable {mk : Byte → Byte → Instr} (g : Byte → Byte → Byte) (hcontrol : ∀ a b, transfersControl (mk a b) = false)
  (hop : ∀ a b, operandBytes (mk a b) = [a, b])

include hcontrol hop

/-- An instruction that is `combineRegs` on a function, with valid registers, writes the function's value at `x[a]` and
`x[b]` as they were, and advances (43_alu.md R110 (f)). -/
theorem exec_of_combineRegs (hexec : ∀ a b s, exec (mk a b) s = combineRegs (mk a b) a b g s) {a b : Byte} (s : State)
    (ha : a.toNat < 8) (hb : b.toNat < 8) :
    exec (mk a b) s = .next { s with
      regs := s.regs.set a.toNat (g s.regs[a.toNat] s.regs[b.toNat]), pc := s.pc + 3 } := by
  rw [hexec, combineRegs, onRegs_ok _ _ _ ha hb]
  exact retire_setReg_of_two_operandBytes s ha _ (hcontrol a b) (hop a b)

/-- Such an instruction computes the integer function that its function is modulo 256. -/
theorem computesRR_of_combineRegs {f : Int → Int → Int}
    (hexec : ∀ a b s, exec (mk a b) s = combineRegs (mk a b) a b g s)
    (hg : ∀ x y, ((g x y).toNat : Int) = f x.toNat y.toNat % 256) : ComputesRR mk f := fun _ _ s ha hb =>
  ⟨_, hg _ _, exec_of_combineRegs g hcontrol hop hexec s ha hb⟩

/-- Such an instruction computes bit by bit what its function does. -/
theorem computesBits_of_combineRegs {f : Bool → Bool → Bool}
    (hexec : ∀ a b s, exec (mk a b) s = combineRegs (mk a b) a b g s)
    (hg : ∀ x y k, (g x y).getLsbD k = f (x.getLsbD k) (y.getLsbD k)) : ComputesBits mk f := fun _ _ s ha hb =>
  ⟨_, fun _ _ => hg _ _ _, exec_of_combineRegs g hcontrol hop hexec s ha hb⟩

/-- An instruction that is `divideRegs` on a function faults on a zero divisor with its opcode, and otherwise computes what
its function does (43_alu.md R114, R115). -/
theorem dividesRR_of_divideRegs {opcode : Byte} {f : Nat → Nat → Nat}
    (hexec : ∀ a b s, exec (mk a b) s = divideRegs (mk a b) a b g s) (hopcode : ∀ a b, opcodeOf (mk a b) = opcode)
    (hg : ∀ x y, (g x y).toNat = f x.toNat y.toNat) : DividesRR opcode mk f := by
  intro a b s ha hb
  rw [hexec, divideRegs, onRegs_ok _ _ _ ha hb, State.reg_eq, State.reg_eq, hopcode]
  refine ⟨fun hzero => ?_, fun hne => ⟨_, hg _ _, ?_⟩⟩
  · exact congrArg (retire (mk a b) s) (if_pos hzero)
  · exact (congrArg (retire (mk a b) s) (if_neg hne)).trans
      (retire_setReg_of_two_operandBytes s ha _ (hcontrol a b) (hop a b))

end

theorem computesRR_add : ComputesRR .add fun x y => x + y :=
  computesRR_of_combineRegs (fun x y => x + y) (fun _ _ => rfl) (fun _ _ => rfl) (fun _ _ _ => rfl) fun x y => by
    rw [BitVec.toNat_add]
    rfl

theorem computesRR_sub : ComputesRR .sub fun x y => x - y :=
  computesRR_of_combineRegs (fun x y => x - y) (fun _ _ => rfl) (fun _ _ => rfl) (fun _ _ _ => rfl)
    sub_toNat

theorem computesRR_mul : ComputesRR .mul fun x y => x * y :=
  computesRR_of_combineRegs (fun x y => x * y) (fun _ _ => rfl) (fun _ _ => rfl) (fun _ _ _ => rfl) fun x y => by
    rw [BitVec.toNat_mul]
    rfl

theorem dividesRR_div : DividesRR 0xA3 .div fun x y => x / y :=
  dividesRR_of_divideRegs (fun x y => x / y) (fun _ _ => rfl) (fun _ _ => rfl) (fun _ _ _ => rfl) (fun _ _ => rfl)
    fun _ _ => BitVec.toNat_udiv

theorem dividesRR_mod : DividesRR 0xA4 .mod fun x y => x % y :=
  dividesRR_of_divideRegs (fun x y => x % y) (fun _ _ => rfl) (fun _ _ => rfl) (fun _ _ _ => rfl) (fun _ _ => rfl)
    fun _ _ => BitVec.toNat_umod

theorem computesBits_and : ComputesBits .and fun p q => p && q :=
  computesBits_of_combineRegs (fun x y => x &&& y) (fun _ _ => rfl) (fun _ _ => rfl) (fun _ _ _ => rfl)
    fun _ _ _ => BitVec.getLsbD_and

theorem computesBits_or : ComputesBits .or fun p q => p || q :=
  computesBits_of_combineRegs (fun x y => x ||| y) (fun _ _ => rfl) (fun _ _ => rfl) (fun _ _ _ => rfl)
    fun _ _ _ => BitVec.getLsbD_or

theorem computesBits_xor : ComputesBits .xor fun p q => p != q :=
  computesBits_of_combineRegs (fun x y => x ^^^ y) (fun _ _ => rfl) (fun _ _ => rfl) (fun _ _ _ => rfl)
    fun _ _ _ => BitVec.getLsbD_xor

/-- A left shift multiplies by a power of two, modulo 256; the count is the whole byte. -/
theorem shiftLeft_toNat (x y : Byte) : (shiftLeft x y).toNat = x.toNat * 2 ^ y.toNat % 256 := by
  rw [shiftLeft, BitVec.toNat_shiftLeft, Nat.shiftLeft_eq]

/-- A right shift divides by a power of two; the count is the whole byte. -/
theorem shiftRight_toNat (x y : Byte) : (shiftRight x y).toNat = x.toNat / 2 ^ y.toNat := by
  rw [shiftRight, BitVec.toNat_ushiftRight, Nat.shiftRight_eq_div_pow]

theorem computesRR_shl : ComputesRR .shl fun x y => x * 2 ^ y.toNat :=
  computesRR_of_combineRegs shiftLeft (fun _ _ => rfl) (fun _ _ => rfl) (fun _ _ _ => rfl) fun x y => by
    rw [shiftLeft_toNat, Int.toNat_natCast]
    push_cast
    rfl

/-- The quotient is at most `x[a]`, so the reduction modulo 256 changes nothing. -/
theorem computesRR_shr : ComputesRR .shr fun x y => x / 2 ^ y.toNat :=
  computesRR_of_combineRegs shiftRight (fun _ _ => rfl) (fun _ _ => rfl) (fun _ _ _ => rfl) fun x y => by
    have hlt : x.toNat / 2 ^ y.toNat < 256 := (Nat.div_le_self _ _).trans_lt x.isLt
    rw [shiftRight_toNat, ← Nat.mod_eq_of_lt hlt, Int.toNat_natCast]
    push_cast
    rfl

/-! ## Flags -/

/-- The flags of a comparison, in terms of the unsigned values (43_alu.md R125). -/
theorem compareFlags_eq (x y : Byte) :
    compareFlags x y =
      if x.toNat = y.toNat then 0b00000001 else if x.toNat < y.toNat then 0b00000100 else 0b00000010 := by
  simp only [compareFlags, BitVec.toNat_inj, BitVec.lt_def]

/-- An effect keeps the flags, unless it is that of IRET or CMP (43_alu.md R126). -/
theorem Effect.fl_eq_or {i : Instr} {s u : State} (h : Effect s i u) :
    u.fl = s.fl ∨ i = .iret ∨ ∃ a b, i = .cmp a b := by
  cases h with
  | iret => exact .inr (.inl rfl)
  | @cmp a b => exact .inr (.inr ⟨a, b, rfl⟩)
  | nop | write | prn | pra | st | push | pop | call | ret | jump | fallThrough => exact .inl rfl

/-! ## The obligations -/

/-- Settles O27: fault entry and HLT keep the flags; for an effect it is `Effect.fl_eq_or`. -/
theorem flagWriters : Obligations.FlagWriters := by
  intro i s t h hfl
  cases exec_answers h with
  | halt | fault => exact absurd rfl hfl
  | done hu => exact hu.fl_eq_or.resolve_left (advance_fl i _ ▸ hfl)

/-- Settles O50: the encodings and the index faults are those of format F2RR. -/
theorem addSubMulRule : Obligations.AddSubMulRule :=
  ⟨checkedRR_of_lookupOpcode rfl fun _ _ => rfl, computesRR_add, checkedRR_of_lookupOpcode rfl fun _ _ => rfl,
    computesRR_sub, checkedRR_of_lookupOpcode rfl fun _ _ => rfl, computesRR_mul⟩

/-- Settles O51: the encodings and the index faults are those of format F2RR. -/
theorem divModRule : Obligations.DivModRule :=
  ⟨checkedRR_of_lookupOpcode rfl fun _ _ => rfl, dividesRR_div, checkedRR_of_lookupOpcode rfl fun _ _ => rfl,
    dividesRR_mod⟩

/-- Settles O52: both results are in register `a`, and are the quotient and the remainder of the same two numbers. -/
theorem divModFitTogether : Obligations.DivModFitTogether := by
  intro a b s q r ha hb hne hdiv hmod
  obtain ⟨vq, hvq, hq⟩ := (dividesRR_div a b s ha hb).2 hne
  obtain ⟨vr, hvr, hr⟩ := (dividesRR_mod a b s ha hb).2 hne
  obtain rfl := Host.Outcome.next.inj (hq.symm.trans hdiv)
  obtain rfl := Host.Outcome.next.inj (hr.symm.trans hmod)
  have hpos : 0 < s.regs[b.toNat].toNat := Nat.pos_of_ne_zero (BitVec.toNat_ne.mp hne)
  simp only [Vector.getElem_set_self, hvq, hvr]
  exact ⟨(Nat.div_add_mod' _ _).symm, Nat.mod_lt _ hpos⟩

/-- Settles O53: the encoding and the index fault are those of format F2RI, the effect is `exec_addi`. -/
theorem addiRule : Obligations.AddiRule :=
  ⟨checkedRI_of_lookupOpcode rfl fun _ _ => rfl, fun _ imm s ha => ⟨_, BitVec.toNat_add _ _, exec_addi imm s ha⟩⟩

/-- Settles O54: the encodings and the index faults are those of format F1R. -/
theorem incDecNotRule : Obligations.IncDecNotRule :=
  ⟨checkedR_of_lookupOpcode rfl fun _ => rfl, computesR_inc, checkedR_of_lookupOpcode rfl fun _ => rfl, computesR_dec,
    checkedR_of_lookupOpcode rfl fun _ => rfl, computesR_not⟩

/-- Settles O55: the encodings and the index faults are those of format F2RR. -/
theorem andOrXorRule : Obligations.AndOrXorRule :=
  ⟨checkedRR_of_lookupOpcode rfl fun _ _ => rfl, computesBits_and, checkedRR_of_lookupOpcode rfl fun _ _ => rfl,
    computesBits_or, checkedRR_of_lookupOpcode rfl fun _ _ => rfl, computesBits_xor⟩

/-- Settles O56: the encodings and the index faults are those of format F2RR. -/
theorem shiftRule : Obligations.ShiftRule :=
  ⟨checkedRR_of_lookupOpcode rfl fun _ _ => rfl, computesRR_shl, checkedRR_of_lookupOpcode rfl fun _ _ => rfl,
    computesRR_shr⟩

/-- Settles O57: the encoding and the index faults are those of format F2RR, the effect is `exec_cmp`. -/
theorem cmpRule : Obligations.CmpRule :=
  ⟨checkedRR_of_lookupOpcode rfl fun _ _ => rfl, fun _ _ s ha hb => compareFlags_eq _ _ ▸ exec_cmp s ha hb⟩

end Sys2Proof.Safety

/-! Proofs of the family 44_io.md: what PRN and PRA answer; what the trace can influence, shown together with the events
that each instruction appends (`exec_agreeButTrace`); and the numeral of a byte, digit by digit. -/

namespace Sys2Proof.Machine

/-! ## Another history of output -/

/-- `s` with `past` for its trace. -/
def State.setTrace (s : State) (past : List Event) : State := { s with trace := past }

theorem advance_setTrace (i : Instr) (s : State) (past : List Event) :
    advance i (s.setTrace past) = (advance i s).setTrace past := by
  simp only [advance_eq]
  rfl

/-- The fetch does not read the trace. -/
theorem fetchDecode_setTrace (s : State) (past : List Event) : fetchDecode (s.setTrace past) = fetchDecode s := rfl

/-! ## The numeral of a byte -/

/-- The character of a digit is the digit's place after `0`. -/
theorem digitChar_toNat (d : Nat) : (digitChar d).toNat = 48 + d % 10 :=
  (Char.toNat_ofNat _).trans (if_pos (.inl (by omega)))

/-- The characters `0` to `9` have the code points 48 to 57. -/
theorem digitChar_bounds (d : Nat) : 48 ≤ (digitChar d).toNat ∧ (digitChar d).toNat ≤ 57 := by
  rw [digitChar_toNat]
  omega

/-- Only a multiple of ten ends in the digit `0`. -/
theorem mod_ten_eq_zero_of_digitChar {d : Nat} (h : digitChar d = '0') : d % 10 = 0 := by
  have hval : 48 + d % 10 = 48 := (digitChar_toNat d).symm.trans (congrArg Char.toNat h)
  omega

/-- One digit, two or three, by the size of the byte. -/
theorem decimal_cases (v : Byte) :
    (v.toNat < 10 ∧ decimal v = [digitChar v.toNat]) ∨
    (10 ≤ v.toNat ∧ v.toNat < 100 ∧ decimal v = [digitChar (v.toNat / 10), digitChar v.toNat]) ∨
    (100 ≤ v.toNat ∧
      decimal v = [digitChar (v.toNat / 100), digitChar (v.toNat / 10), digitChar v.toNat]) := by
  by_cases hten : v.toNat < 10
  · exact .inl ⟨hten, if_pos hten⟩
  · by_cases hhundred : v.toNat < 100
    · exact .inr (.inl ⟨by omega, hhundred, (if_neg hten).trans (if_pos hhundred)⟩)
    · exact .inr (.inr ⟨by omega, (if_neg hten).trans (if_neg hhundred)⟩)

theorem decimal_ne_nil (v : Byte) : decimal v ≠ [] := by
  obtain ⟨-, h⟩ | ⟨-, -, h⟩ | ⟨-, h⟩ := decimal_cases v <;> simp [h]

/-- A numeral is made of decimal digits. -/
theorem decimal_digits (v : Byte) : ∀ c ∈ decimal v, 48 ≤ c.toNat ∧ c.toNat ≤ 57 := by
  obtain ⟨-, h⟩ | ⟨-, -, h⟩ | ⟨-, h⟩ := decimal_cases v <;> simp [h, digitChar_bounds]

/-- The digits, read from the left, give the byte. -/
theorem decimal_value (v : Byte) : (decimal v).foldl (fun n c => 10 * n + (c.toNat - 48)) 0 = v.toNat := by
  have hbyte := v.isLt
  obtain ⟨_, h⟩ | ⟨_, _, h⟩ | ⟨_, h⟩ := decimal_cases v <;>
    simp only [h, List.foldl_cons, List.foldl_nil, digitChar_toNat] <;> omega

/-- A numeral of two digits or three does not begin with `0`. -/
theorem decimal_eq_of_head?_eq {v : Byte} (h0 : (decimal v).head? = some '0') : decimal v = ['0'] := by
  have hbyte := v.isLt
  obtain ⟨-, h⟩ | ⟨_, _, h⟩ | ⟨_, h⟩ := decimal_cases v <;> rw [h] at h0
  · rw [h, Option.some.inj h0]
  · have hfirst := mod_ten_eq_zero_of_digitChar (Option.some.inj h0)
    omega
  · have hfirst := mod_ten_eq_zero_of_digitChar (Option.some.inj h0)
    omega

end Sys2Proof.Machine

namespace Sys2Proof.Safety

open Sys2Proof.Machine

/-! ## PRN and PRA -/

section

variable {i : Instr} {a : Byte} {s : State}

/-- An instruction that emits the value of its register, with a valid one, appends one event and advances
(44_io.md R130, R131). -/
theorem onReg_emit (kind : EventKind) (s : State) (ha : a.toNat < 8) (hcontrol : transfersControl i = false)
    (hop : operandBytes i = [a]) :
    onReg i a s (fun ra => .ok (emit kind (s.reg ra) s)) =
      .next { s with trace := s.trace ++ [⟨kind, s.regs[a.toNat]⟩], pc := s.pc + 2 } := by
  rw [onReg_ok _ _ _ ha]
  exact congrArg Host.Outcome.next (advance_of_one_operandByte _ hcontrol hop)

theorem operandValue_of_le (s : State) (ha : 8 ≤ a.toNat) : operandValue s a = none :=
  Vector.getElem?_eq_none ha

/-- With a valid register PRN and PRA do not fault, and without one they emit nothing; no other instruction emits. -/
theorem emitted_eq_nil_of_dispatchFault (h : dispatchFault i s ≠ none) : emitted i s = [] := by
  cases i with
  | prn a | pra a =>
    have hbad : 8 ≤ a.toNat := by
      by_contra hvalid
      simp [dispatchFault, Instr.regOperands, namesRegister, Nat.not_le.mp hvalid, dividesByZero, divisorOperand] at h
    simp [emitted, operandValue_of_le s hbad]
  | _ => rfl

/-- Where an instruction is dispatched, the cycle faults as the instruction does. -/
theorem cycleFault_of_instrAtPc (hpc : s.pc.toNat ≤ 253) (hat : instrAtPc s = some i) :
    cycleFault s = dispatchFault i s := by
  rw [cycleFault, if_neg (by omega), hat]

end

/-! ## What the trace can influence -/

section

variable {i : Instr} {a b : Byte} {s : State} {past : List Event}

/-- Two answers, the second from the state with the trace `past`, agree but for the trace, and each appends `new` to the
trace it began with. -/
def AgreeButTrace (s : State) (past new : List Event) (r r' : Result) : Prop :=
  ∃ t, r = .next t ∧ t.trace = s.trace ++ new ∧ r' = .next (t.setTrace (past ++ new))

/-- The same of the answers of a handler that leaves the trace alone, or faults alike. -/
inductive QuietHandlers (s : State) (past : List Event) : Except FaultCause State → Except FaultCause State → Prop
  | ok {u : State} (hu : u.trace = s.trace) : QuietHandlers s past (.ok u) (.ok (u.setTrace past))
  | error (c : FaultCause) : QuietHandlers s past (.error c) (.error c)

theorem agreeButTrace_nil {t : State} (ht : t.trace = s.trace) :
    AgreeButTrace s past [] (.next t) (.next (t.setTrace past)) :=
  ⟨t, rfl, by rw [ht, List.append_nil], by rw [List.append_nil]⟩

theorem takeFault_agreeButTrace (c : FaultCause) :
    AgreeButTrace s past [] (takeFault c s) (takeFault c (s.setTrace past)) :=
  agreeButTrace_nil (t := raiseFault c s) rfl

theorem retire_agreeButTrace {r r' : Except FaultCause State} (h : QuietHandlers s past r r') :
    AgreeButTrace s past [] (retire i s r) (retire i (s.setTrace past) r') := by
  cases h with
  | @ok u hu =>
    rw [retire, retire, advance_setTrace]
    exact agreeButTrace_nil ((advance_trace i u).trans hu)
  | error c => exact takeFault_agreeButTrace c

theorem onReg_agreeButTrace {handler handler' : RegIndex → Except FaultCause State}
    (h : ∀ ra, QuietHandlers s past (handler ra) (handler' ra)) :
    AgreeButTrace s past [] (onReg i a s handler) (onReg i a (s.setTrace past) handler') := by
  by_cases ha : a.toNat < 8
  · rw [onReg_ok _ _ _ ha, onReg_ok _ _ _ ha]
    exact retire_agreeButTrace (h _)
  · rw [onReg_error _ _ _ (by omega), onReg_error _ _ _ (by omega)]
    exact takeFault_agreeButTrace _

theorem onRegs_agreeButTrace {handler handler' : RegIndex → RegIndex → Except FaultCause State}
    (h : ∀ ra rb, QuietHandlers s past (handler ra rb) (handler' ra rb)) :
    AgreeButTrace s past [] (onRegs i a b s handler) (onRegs i a b (s.setTrace past) handler') := by
  by_cases ha : a.toNat < 8
  · by_cases hb : b.toNat < 8
    · rw [onRegs_ok _ _ _ ha hb, onRegs_ok _ _ _ ha hb]
      exact retire_agreeButTrace (h _ _)
    · rw [onRegs_error_b _ _ _ ha (by omega), onRegs_error_b _ _ _ ha (by omega)]
      exact takeFault_agreeButTrace _
  · rw [onRegs_error_a _ _ _ _ (by omega), onRegs_error_a _ _ _ _ (by omega)]
    exact takeFault_agreeButTrace _

theorem divideRegs_agreeButTrace {g : Byte → Byte → Byte} :
    AgreeButTrace s past [] (divideRegs i a b g s) (divideRegs i a b g (s.setTrace past)) := by
  refine onRegs_agreeButTrace fun ra rb => ?_
  have hreg : (s.setTrace past).reg rb = s.reg rb := rfl
  rw [hreg]
  by_cases hzero : s.reg rb = 0#8
  · rw [if_pos hzero, if_pos hzero]; exact .error _
  · rw [if_neg hzero, if_neg hzero]; exact .ok rfl

/-- Both runs of PRN or PRA append the value of the register, the same in both, or fault on its index. -/
theorem onReg_emit_agreeButTrace (kind : EventKind) :
    AgreeButTrace s past ((operandValue s a).map (Event.mk kind)).toList
      (onReg i a s fun ra => .ok (emit kind (s.reg ra) s))
      (onReg i a (s.setTrace past) fun ra => .ok (emit kind ((s.setTrace past).reg ra) (s.setTrace past))) := by
  by_cases ha : a.toNat < 8
  · rw [operandValue_of_lt s ha, onReg_ok _ _ _ ha, onReg_ok _ _ _ ha]
    exact ⟨_, rfl, advance_trace i _, congrArg Host.Outcome.next (advance_setTrace i (emit kind _ s) _)⟩
  · rw [operandValue_of_le s (by omega), onReg_error _ _ _ (by omega), onReg_error _ _ _ (by omega)]
    exact takeFault_agreeButTrace _

/-- An instruction appends the event it emits, and does otherwise the same whatever the trace holds. -/
theorem exec_agreeButTrace (i : Instr) (s : State) (past : List Event) :
    AgreeButTrace s past (emitted i s) (exec i s) (exec i (s.setTrace past)) := by
  cases i with
  | nop => exact retire_agreeButTrace (r := .ok s) (.ok rfl)
  | hlt => exact agreeButTrace_nil (t := s.setStatus .halted) rfl
  | ret => rw [exec_ret, exec_ret]; exact agreeButTrace_nil rfl
  | iret => rw [exec_iret, exec_iret]; exact agreeButTrace_nil rfl
  | push a => exact onReg_agreeButTrace fun _ => by rw [push_eq, push_eq]; exact .ok rfl
  | pop a => exact onReg_agreeButTrace fun _ => by rw [memRead_byte, memRead_byte]; exact .ok rfl
  | prn a => exact onReg_emit_agreeButTrace .num
  | pra a => exact onReg_emit_agreeButTrace .chr
  | call a => exact onReg_agreeButTrace fun _ => by rw [push_eq, push_eq]; exact .ok rfl
  | jmp a | jeq a | jne a | jgt a | jlt a | jle a | jge a | inc a | dec a | not a | addi a _ | ldi a _ =>
    exact onReg_agreeButTrace fun _ => .ok rfl
  | ld a b => exact onRegs_agreeButTrace fun _ _ => by rw [memRead_byte, memRead_byte]; exact .ok rfl
  | st a b => exact onRegs_agreeButTrace fun _ _ => by rw [memWrite_byte, memWrite_byte]; exact .ok rfl
  | add a b | sub a b | mul a b | cmp a b | and a b | or a b | xor a b | shl a b | shr a b =>
    exact onRegs_agreeButTrace fun _ _ => .ok rfl
  | div a b | mod a b => exact divideRegs_agreeButTrace

theorem exec_trace {t : State} (h : exec i s = .next t) : t.trace = s.trace ++ emitted i s := by
  obtain ⟨u, hu, htrace, -⟩ := exec_agreeButTrace i s []
  obtain rfl := Host.Outcome.next.inj (hu.symm.trans h)
  exact htrace

/-- A step does the same whatever the trace holds, but for the trace, to which it appends the same events. -/
theorem step_agreeButTrace (s : State) (past : List Event) :
    ∃ new, AgreeButTrace s past new (step s) (step (s.setTrace past)) := by
  by_cases hrun : s.status = .running
  · cases hf : fetchDecode s with
    | ok i =>
      rw [step_dispatch hrun hf, step_dispatch (s := s.setTrace past) hrun ((fetchDecode_setTrace s past).trans hf)]
      exact ⟨_, exec_agreeButTrace i s past⟩
    | error c =>
      rw [step_fault hrun hf, step_fault (s := s.setTrace past) hrun ((fetchDecode_setTrace s past).trans hf)]
      exact ⟨_, takeFault_agreeButTrace c⟩
  · rw [step_stopped hrun, step_stopped (s := s.setTrace past) hrun]
    exact ⟨_, agreeButTrace_nil rfl⟩

end

/-! ## The obligations -/

/-- Settles O30: a fault before dispatch leaves the trace, and an instruction appends what it emits, which is nothing
where it faults. -/
theorem traceOnlyGrows : Obligations.TraceOnlyGrows := by
  intro s t hrun h
  obtain ⟨hstop, -⟩ | ⟨-, c, hc, rfl⟩ | ⟨-, i, hi, hexec⟩ := step_cases h
  · exact absurd hrun hstop
  · refine ⟨fun _ => rfl, fun i hpc hat => ?_⟩
    cases hc.symm.trans (fetchDecode_eq_ok_iff.mpr ⟨hpc, hat⟩)
  · obtain ⟨hpc, hat⟩ := fetchDecode_eq_ok_iff.mp hi
    refine ⟨fun hfault => ?_, fun j _ hj => ?_⟩
    · rw [cycleFault_of_instrAtPc hpc hat] at hfault
      rw [exec_trace hexec, emitted_eq_nil_of_dispatchFault hfault, List.append_nil]
    · obtain rfl := Option.some.inj (hat.symm.trans hj)
      exact exec_trace hexec

/-- Settles O31, by `step_agreeButTrace`. -/
theorem traceNeverRead : Obligations.TraceNeverRead := by
  intro s t past h
  obtain ⟨new, u, hu, htrace, hu'⟩ := step_agreeButTrace s past
  obtain rfl := Host.Outcome.next.inj (hu.symm.trans h)
  exact ⟨_, new, hu', htrace, rfl⟩

/-- Settles O32: the text of (NUM, v) is `decimal v`, and that of (CHR, v) is by definition. -/
theorem decimalText : Obligations.DecimalText := fun v =>
  ⟨decimal_ne_nil v, decimal_digits v, decimal_value v, decimal_eq_of_head?_eq, rfl⟩

/-- Settles O58: the encodings and the index faults are those of format F1R, the effects are `onReg_emit`. -/
theorem printRule : Obligations.PrintRule :=
  ⟨checkedR_of_lookupOpcode rfl fun _ => rfl, checkedR_of_lookupOpcode rfl fun _ => rfl, fun _ s ha =>
    ⟨onReg_emit .num s ha rfl rfl, onReg_emit .chr s ha rfl rfl⟩⟩

end Sys2Proof.Safety

/-! Proofs of the family 60_exceptions.md: a cycle ends in the fault that `cycleFault` names, and in no other, because its
fetch, its decode and its dispatch each do; and what the record of a fault holds. -/

namespace Sys2Proof.Safety

open Sys2Proof.Machine

/-! ## The fault of a dispatched instruction -/

/-- How a cycle ends that begins in `s` and has the fault `f`, if it has one: in its fault entry, or not FAULTED. -/
inductive EndsIn (s : State) : Option FaultCause → Result → Prop
  | fault (c : FaultCause) : EndsIn s (some c) (.next (faultEntry c s))
  | noFault {t : State} (ht : t.status ≠ .faulted) : EndsIn s none (.next t)

section

variable {i : Instr} {s t : State} {c : FaultCause}

/-- An end of a cycle read by whether the cycle has a fault. -/
theorem EndsIn.elim {f : Option FaultCause} {r : Result} (h : EndsIn s f r) :
    (∀ c, f = some c → r = .next (faultEntry c s)) ∧ (f = none → ∃ t, r = .next t ∧ t.status ≠ .faulted) := by
  cases h with
  | fault c => exact ⟨fun _ hc => Option.some.inj hc ▸ rfl, nofun⟩
  | noFault ht => exact ⟨nofun, fun _ => ⟨_, rfl, ht⟩⟩

/-- The fault of an instruction is its first invalid operand, whatever it divides by. -/
theorem dispatchFault_of_invalid {b : Byte} {pre post : List Byte} (hsplit : i.regOperands = pre ++ b :: post)
    (hpre : ∀ p ∈ pre, p.toNat < 8) (hb : 8 ≤ b.toNat) : dispatchFault i s = some (.outOfRangeAccess .reg b.toNat) := by
  have hfind : i.regOperands.find? (fun b => !namesRegister b) = some b :=
    List.find?_eq_some_iff_append.mpr
      ⟨by simpa [namesRegister] using hb, pre, post, hsplit, by simpa [namesRegister] using hpre⟩
  rw [dispatchFault, hfind]

/-- Where all operands are valid, only a zero divisor is a fault. -/
theorem dispatchFault_of_wf (hwf : i.wf = true) :
    dispatchFault i s = if dividesByZero i s then some (.arithmeticError (opcodeOf i)) else none := by
  have hfind : i.regOperands.find? (fun b => !namesRegister b) = none := by simpa [Instr.wf] using hwf
  rw [dispatchFault, hfind]

/-- An instruction that is not well formed has a first invalid operand, where the operand check stops. -/
theorem invalidOperand_or_wf (i : Instr) :
    (∃ b pre post, i.regOperands = pre ++ b :: post ∧ (∀ p ∈ pre, p.toNat < 8) ∧ 8 ≤ b.toNat) ∨ i.wf = true := by
  cases hfind : i.regOperands.find? (fun b => !namesRegister b) with
  | some b =>
    obtain ⟨hb, pre, post, hsplit, hpre⟩ := List.find?_eq_some_iff_append.mp hfind
    exact .inl ⟨b, pre, post, hsplit, by simpa [namesRegister] using hpre, by simpa [namesRegister] using hb⟩
  | none => exact .inr (by simpa [Instr.wf] using hfind)

/-- A valid divisor register holds 0 where the instruction divides by zero. -/
theorem regs_eq_zero_of_dividesByZero {b : Byte} (hb : b.toNat < 8) (hi : divisorOperand i = some b)
    (h : dividesByZero i s = true) : s.regs[b.toNat] = 0 := by
  simpa [dividesByZero, hi, operandValue_of_lt s hb] using h

/-- The register operands of a well-formed instruction of format F2RR are valid. -/
theorem operands_lt_of_wf {a b : Byte} (hwf : i.wf = true) (hop : i.regOperands = [a, b]) :
    a.toNat < 8 ∧ b.toNat < 8 := by
  simpa [Instr.wf_iff, hop] using hwf

/-- DIV and MOD by a register that holds 0 are ArithmeticError with their opcode (43_alu.md R114, R115); no other
instruction divides. -/
theorem exec_of_dividesByZero (hwf : i.wf = true) (hzero : dividesByZero i s = true) :
    exec i s = .next (faultEntry (.arithmeticError (opcodeOf i)) s) := by
  cases i with
  | div a b =>
    obtain ⟨ha, hb⟩ := operands_lt_of_wf hwf rfl
    exact (dividesRR_div a b s ha hb).1 (regs_eq_zero_of_dividesByZero hb rfl hzero)
  | mod a b =>
    obtain ⟨ha, hb⟩ := operands_lt_of_wf hwf rfl
    exact (dividesRR_mod a b s ha hb).1 (regs_eq_zero_of_dividesByZero hb rfl hzero)
  | _ => cases hzero

/-- A dispatched instruction ends in its first fault of operand_a, operand_b and zero divisor (60_exceptions.md R144,
points 3 to 5). -/
theorem exec_endsIn_dispatchFault (hrun : s.status = .running) : EndsIn s (dispatchFault i s) (exec i s) := by
  obtain ⟨b, pre, post, hsplit, hpre, hb⟩ | hwf := invalidOperand_or_wf i
  · rw [dispatchFault_of_invalid hsplit hpre hb, operandCheck i s pre post b hsplit hpre hb]
    exact .fault _
  · rw [dispatchFault_of_wf hwf]
    by_cases hzero : dividesByZero i s = true
    · rw [if_pos hzero, exec_of_dividesByZero hwf hzero]
      exact .fault _
    · obtain ⟨t, ht, hstatus, -⟩ := wellFormedCompletes i s hwf hrun (by simpa using hzero)
      rw [if_neg hzero, ht]
      exact .noFault (by rw [hstatus]; split <;> decide)

/-! ## The fault of a cycle -/

/-- Where no instruction stands at `pc`, the opcode byte there has no handler. -/
theorem lookupOpcode_of_instrAtPc_eq_none (h : instrAtPc s = none) : lookupOpcode (byteAtPc s 0) = none := by
  by_contra hne
  obtain ⟨shape, hshape⟩ := Option.ne_none_iff_exists'.mp hne
  cases h.symm.trans (instrAtPc_eq_some_iff.mpr (decode_of_lookupOpcode _ _ hshape))

theorem cycleFault_of_le (h : 254 ≤ s.pc.toNat) : cycleFault s = some (.outOfRangeAccess .mem 256) := if_pos h

theorem cycleFault_of_instrAtPc_eq_none (hpc : s.pc.toNat ≤ 253) (hat : instrAtPc s = none) :
    cycleFault s = some (.decodeError (byteAtPc s 0)) := by
  rw [cycleFault, if_neg (by omega), hat]

/-- A cycle ends in the first fault of fetch, decode and dispatch (60_exceptions.md R144). -/
theorem step_endsIn_cycleFault (hrun : s.status = .running) (hpc : s.pc.toNat ≤ 256) :
    EndsIn s (cycleFault s) (step s) := by
  by_cases hfetch : 254 ≤ s.pc.toNat
  · rw [cycleFault_of_le hfetch, fetchFaultsAtTop s hrun hfetch hpc]
    exact .fault _
  · have hlow : s.pc.toNat ≤ 253 := by omega
    cases hat : instrAtPc s with
    | none =>
      rw [cycleFault_of_instrAtPc_eq_none hlow hat,
        step_of_lookupOpcode_eq_none hrun hlow (lookupOpcode_of_instrAtPc_eq_none hat)]
      exact .fault _
    | some i =>
      rw [cycleFault_of_instrAtPc hlow hat, step_dispatch hrun (fetchDecode_eq_ok_iff.mpr ⟨hlow, hat⟩)]
      exact exec_endsIn_dispatchFault hrun

/-! ## The fault record -/

theorem faultCode_of_fault_eq_some {p : PcWord} (h : s.fault = some ⟨c, p⟩) : s.faultCode = c.code := by
  rw [State.faultCode, h]

theorem faultCode_of_fault_eq_none (h : s.fault = none) : s.faultCode = 0 := by
  rw [State.faultCode, h]

/-- The codes of 60_exceptions.md R140 other than "no fault". -/
theorem faultCause_code_mem (c : FaultCause) : c.code ∈ [1, 2, 3] := by
  cases c <;> simp [FaultCause.code]

/-- In a state that meets the invariant, FAULTED has a record of a listed detail at the present `pc`. -/
theorem Inv.exists_record (hs : Inv s) (hfaulted : s.status = .faulted) :
    ∃ c, s.fault = some { cause := c, faultPc := s.pc } ∧ DetailListed c := by
  obtain ⟨⟨c, p⟩, hrecord⟩ := Option.isSome_iff_exists.mp (hs.recordIffFaulted.mp hfaulted)
  obtain ⟨hlisted, rfl⟩ := hs.recordListed _ hrecord
  exact ⟨c, hrecord, hlisted⟩

/-- In a state that meets the invariant, only FAULTED has a record. -/
theorem Inv.fault_eq_none_of_ne (hs : Inv s) (h : s.status ≠ .faulted) : s.fault = none := by
  simpa [h] using hs.recordIffFaulted

/-- The listed details, each with its code. -/
theorem DetailListed.code_cases (h : DetailListed c) :
    (∃ opcode, c = .decodeError opcode ∧ c.code = 1 ∧ ∀ a b, decode opcode a b = .error (.noHandler opcode)) ∨
    ((c = .arithmeticError 0xA3 ∨ c = .arithmeticError 0xA4) ∧ c.code = 2) ∨
    ((c = .outOfRangeAccess .mem 256 ∨ ∃ b : Byte, 8 ≤ b.toNat ∧ c = .outOfRangeAccess .reg b.toNat) ∧
      c.code = 3) := by
  match c, h with
  | .decodeError opcode, hnone =>
    exact .inl ⟨opcode, rfl, rfl, fun a b => decode_of_lookupOpcode_eq_none a b hnone⟩
  | .arithmeticError _, hop => exact .inr (.inl ⟨hop.imp (congrArg _) (congrArg _), rfl⟩)
  | .outOfRangeAccess .mem _, hindex => exact .inr (.inr ⟨.inl (congrArg _ hindex), rfl⟩)
  | .outOfRangeAccess .reg index, ⟨hlow, hhigh⟩ =>
    exact .inr (.inr ⟨.inr ⟨.ofNatLT index (Nat.lt_succ_of_le hhigh), hlow, rfl⟩, rfl⟩)

end

/-! ## The obligations -/

/-- Settles O23, by `step_endsIn_cycleFault`. -/
theorem faultPriority : Obligations.FaultPriority := fun _ hrun hpc => (step_endsIn_cycleFault hrun hpc).elim

/-- Settles O24: a step that leaves RUNNING has halted or entered a fault, by `stopped_cases`. -/
theorem faultsArePrecise : Obligations.FaultsArePrecise := by
  intro s t hrun h ht
  obtain ⟨-, rfl⟩ | ⟨c, rfl⟩ := stopped_cases hrun h (by simp [ht])
  · cases ht
  · exact ⟨rfl, rfl, rfl, rfl, rfl, c, rfl, rfl, faultCause_code_mem c⟩

/-- Settles O25: the record is of a listed detail, and `DetailListed.code_cases` gives its code. -/
theorem faultRecordCodes : Obligations.FaultRecordCodes := by
  intro s hs
  refine ⟨fun h => faultCode_of_fault_eq_none (hs.fault_eq_none_of_ne h), fun hfaulted => ?_⟩
  obtain ⟨c, hrecord, hlisted⟩ := hs.exists_record hfaulted
  rw [faultCode_of_fault_eq_some hrecord]
  exact ⟨c, hrecord, hlisted.code_cases⟩

end Sys2Proof.Safety

/-! Proofs of the family 70_reset_and_hazards.md: the launch state by the length of the image, the progress of a running
engine, and a placed word read back by the next fetch. -/

namespace Sys2Proof.Safety

open Sys2Proof.Machine

section

variable {i : Instr} {s t : State} {image : List Byte}

/-! ## The launch state -/

/-- Exactly the images that fit the memory have a launch state. -/
theorem launch_eq_some_iff :
    launch image = some t ↔ image.length ≤ 256 ∧ t = { State.reset with mem := Memory.putBytes [] 0 image } := by
  by_cases hlen : image.length ≤ 256 <;> simp [launch, hlen, eq_comm]

theorem launch_eq_none (h : 256 < image.length) : launch image = none := if_neg (by simpa using h)

/-- An image written into empty memory is read with zeros beyond its end. -/
theorem get_putBytes_nil (image : List Byte) (addr : Nat) :
    Memory.get (Memory.putBytes [] 0 image) addr = image.getD addr 0 := by
  rw [Memory.get_putBytes]
  by_cases haddr : addr < image.length
  · simp [haddr]
  · simp [haddr, Memory.get]

theorem wf_putBytes_nil (h : image.length ≤ 256) : Memory.wf (Memory.putBytes [] 0 image) = true :=
  Memory.wf_putBytes [] 0 image (by omega) rfl

/-! ## Progress -/

theorem EndsIn.exists_next {f : Option FaultCause} {r : Result} (h : EndsIn s f r) : ∃ t, r = .next t := by
  cases h with
  | fault | noFault => exact ⟨_, rfl⟩

/-- A running engine has a next state, whatever `pc` and memory hold. -/
theorem step_exists_next (hrun : s.status = .running) : ∃ t, step s = .next t := by
  cases hf : fetchDecode s with
  | error c => exact ⟨_, step_fault hrun hf⟩
  | ok i =>
    rw [step_dispatch hrun hf]
    exact (exec_endsIn_dispatchFault hrun).exists_next

/-! ## A placed word -/

/-- A table word that the decoder reads is three bytes that decode. -/
theorem decodeTableWord_eq_some_iff {nbits w : Nat} : decodeTableWord nbits w = some i ↔
    decode (tableByte nbits w 0) (tableByte nbits w 1) (tableByte nbits w 2) = .ok i := by
  simp only [decodeTableWord, decodeBytes]
  cases decode (tableByte nbits w 0) (tableByte nbits w 1) (tableByte nbits w 2) <;> simp

/-- Where a fetch stays in the memory, placing a word writes its three bytes from `pc` on. -/
theorem withFetchWord_eq (nbits w : Nat) (hpc : s.pc.toNat ≤ 253) :
    s.withFetchWord nbits w =
      { s with mem :=
          s.mem.putBytes s.pc.toNat [tableByte nbits w 0, tableByte nbits w 1, tableByte nbits w 2] } :=
  if_pos (show s.pc.toNat + 2 < 256 by omega)

/-- The three bytes at `pc` are those placed there. -/
theorem byteAtPc_withFetchWord (nbits w : Nat) {k : Nat} (hpc : s.pc.toNat ≤ 253) (hk : k < 3) :
    byteAtPc (s.withFetchWord nbits w) k = tableByte nbits w k := by
  rw [withFetchWord_eq nbits w hpc, byteAtPc, Memory.get_putBytes, if_pos (by simp [hk]), Nat.add_sub_cancel_left]
  match k, hk with
  | 0, _ | 1, _ | 2, _ => rfl

/-- The instruction of a word placed at `pc` is the one that stands there. -/
theorem instrAtPc_withFetchWord {nbits w : Nat} (hpc : s.pc.toNat ≤ 253) (hi : decodeTableWord nbits w = some i) :
    instrAtPc (s.withFetchWord nbits w) = some i := by
  have hbyte {k : Nat} (hk : k < 3) := byteAtPc_withFetchWord nbits w hpc hk
  rw [instrAtPc_eq_some_iff, hbyte (by decide), hbyte (by decide), hbyte (by decide)]
  exact decodeTableWord_eq_some_iff.mp hi

end

/-! ## The obligations -/

/-- Settles O2: the image is read back by `get_putBytes_nil`, and what does not fit has no launch state. -/
theorem launchHoldsImage : Obligations.LaunchHoldsImage := fun image =>
  ⟨fun hlen => ⟨_, launch_eq_some_iff.mpr ⟨hlen, rfl⟩, get_putBytes_nil image, wf_putBytes_nil hlen, rfl⟩,
    launch_eq_none⟩

/-- Settles O4: there is a next state by `step_exists_next`, and `step` is a function. -/
theorem engineNeverStalls : Obligations.EngineNeverStalls := by
  intro s hrun
  obtain ⟨t, ht⟩ := step_exists_next hrun
  exact ⟨t, ht, fun t' ht' => Host.Outcome.next.inj (ht'.symm.trans ht)⟩

/-- Settles O7: launch changes only the memory of the reset state, and leaves it canonical. -/
theorem launchMeetsInvariant : Obligations.LaunchMeetsInvariant := by
  intro image t h
  obtain ⟨hlen, rfl⟩ := launch_eq_some_iff.mp h
  exact { resetMeetsInvariant with memCanonical := wf_putBytes_nil hlen }

/-- Settles O22: placing keeps the status and `pc`, so the step dispatches the instruction that stands at `pc`. -/
theorem placedWordRuns : Obligations.PlacedWordRuns := by
  intro s nbits w i hrun hpc hi
  have hplaced := withFetchWord_eq nbits w hpc
  have hat := instrAtPc_withFetchWord hpc hi
  exact step_dispatch (by rw [hplaced]; exact hrun) (fetchDecode_eq_ok_iff.mpr ⟨by rw [hplaced]; exact hpc, hat⟩)

end Sys2Proof.Safety

/-! Proofs of the family 'other': words written out from the spec's Encoding lines. -/

namespace Sys2Proof.Safety

/-! ## The obligations -/

/-- Settles O12: each legal word by the format that the opcode map gives its first byte, and 0x52 because no row has it. -/
theorem decodesSpecWords : Obligations.DecodesSpecWords :=
  ⟨decode_of_lookupOpcode (shape := .f0 .hlt) _ _ rfl,
    decode_of_lookupOpcode (shape := .f0 .iret) _ _ rfl,
    decode_of_lookupOpcode (shape := .f1R .push) _ _ rfl,
    decode_of_lookupOpcode (shape := .f1R .call) _ _ rfl,
    decode_of_lookupOpcode (shape := .f1R .jge) _ _ rfl,
    decode_of_lookupOpcode (shape := .f1R .jle) _ _ rfl,
    decode_of_lookupOpcode (shape := .f2RI .ldi) _ _ rfl,
    decode_of_lookupOpcode (shape := .f2RR .st) _ _ rfl,
    decode_of_lookupOpcode (shape := .f2RR .sub) _ _ rfl,
    decode_of_lookupOpcode (shape := .f2RI .addi) _ _ rfl,
    decode_of_lookupOpcode (shape := .f1R .pra) _ _ rfl,
    decode_of_lookupOpcode_eq_none _ _ (lookupOpcode_eq_none_iff.mpr (by decide))⟩

end Sys2Proof.Safety
